-- ==== Sys2Proof/Word.lean ====
section
/-! DEFINITION. The word types of the CHIP-8 CPU core: every value of the machine is an unsigned number of a stated width
(R11), so registers and addresses are plain bit vectors and there is no signed reading anywhere. -/

namespace Sys2Proof

/-- A byte of memory, a general register or a timer (R21, R31, R36). -/
abbrev Byte := BitVec 8

/-- A 16-bit quantity: an instruction word, `pc`, `I`, a stack slot (R24, R29, R30, R90). -/
abbrev Word := BitVec 16

/-- The index of a general register (a 4-bit field `x` or `y`, R21) or of a key (R37). -/
abbrev Index := Fin 16

/-- The framebuffer: 2048 one-bit pixels in one linear array, pixel `(x, y)` at bit `x + 64 y` (R34). -/
abbrev Frame := BitVec 2048

/-- The register that doubles as the flag register, VF (R21, R26). -/
abbrev VF : Index := 15

/-- `zext_16` of a byte (R11). -/
abbrev zext16 (b : Byte) : Word := b.setWidth 16

end Sys2Proof
end

