-- ==== Sys2Proof/Syntax.lean ====
section
/-! DEFINITION. The instruction set: one constructor for each of the 34 rows of spec/opcode_table.json (R93), in the table's
order. Register fields are indices 0..15 and an immediate is a byte, so those are well formed by their types; a jump or index
target is kept as the 16-bit address it becomes when it is written to `pc` or `I` (R92), and a sprite height as a number of
rows: `WellFormed.lean` says which of those an instruction word can hold. -/

namespace Sys2Proof

/-- The 34 operations (R93). The names are the table's, with a lower-case first letter; `Return` is `ret`, because `return`
is a word of Lean. -/
inductive Instr where
  /-- `Clear`, 00E0 (R140). -/
  | clear
  /-- `Return`, 00EE (R141). -/
  | ret
  /-- `Jump(addr)`, 1nnn (R142). -/
  | jump (addr : Word)
  /-- `Call(addr)`, 2nnn (R143). -/
  | call (addr : Word)
  /-- `SkipIfEqualImmediate(x,kk)`, 3xkk (R150). -/
  | skipIfEqualImmediate (x : Index) (kk : Byte)
  /-- `SkipIfNotEqualImmediate(x,kk)`, 4xkk (R151). -/
  | skipIfNotEqualImmediate (x : Index) (kk : Byte)
  /-- `SkipIfRegistersEqual(x,y)`, 5xy0 (R152). -/
  | skipIfRegistersEqual (x y : Index)
  /-- `LoadImmediate(x,kk)`, 6xkk (R160). -/
  | loadImmediate (x : Index) (kk : Byte)
  /-- `AddImmediate(x,kk)`, 7xkk (R161). -/
  | addImmediate (x : Index) (kk : Byte)
  /-- `Copy(x,y)`, 8xy0 (R162). -/
  | copy (x y : Index)
  /-- `Or(x,y)`, 8xy1 (R163). -/
  | or (x y : Index)
  /-- `And(x,y)`, 8xy2 (R164). -/
  | and (x y : Index)
  /-- `Xor(x,y)`, 8xy3 (R165). -/
  | xor (x y : Index)
  /-- `Add(x,y)`, 8xy4 (R166). -/
  | add (x y : Index)
  /-- `SubXY(x,y)`, 8xy5 (R167). -/
  | subXY (x y : Index)
  /-- `ShiftRight(x)`, 8xy6 with `y` a don't-care field that is no operand (R96, R169). -/
  | shiftRight (x : Index)
  /-- `SubYX(x,y)`, 8xy7 (R168). -/
  | subYX (x y : Index)
  /-- `ShiftLeft(x)`, 8xyE with `y` a don't-care field that is no operand (R96, R170). -/
  | shiftLeft (x : Index)
  /-- `SkipIfRegistersNotEqual(x,y)`, 9xy0 (R153). -/
  | skipIfRegistersNotEqual (x y : Index)
  /-- `SetIndex(addr)`, Annn (R180). -/
  | setIndex (addr : Word)
  /-- `JumpPlusV0(addr)`, Bnnn (R144). -/
  | jumpPlusV0 (addr : Word)
  /-- `Random(x,kk)`, Cxkk (R210). -/
  | random (x : Index) (kk : Byte)
  /-- `DrawSprite(x,y,n)`, Dxyn (R190); `n` is the number of sprite rows. -/
  | drawSprite (x y : Index) (n : Nat)
  /-- `SkipIfKeyPressed(x)`, Ex9E (R203). -/
  | skipIfKeyPressed (x : Index)
  /-- `SkipIfKeyNotPressed(x)`, ExA1 (R204). -/
  | skipIfKeyNotPressed (x : Index)
  /-- `LoadDelayIntoRegister(x)`, Fx07 (R200). -/
  | loadDelayIntoRegister (x : Index)
  /-- `WaitForKey(x)`, Fx0A (R205). -/
  | waitForKey (x : Index)
  /-- `SetDelay(x)`, Fx15 (R201). -/
  | setDelay (x : Index)
  /-- `SetSound(x)`, Fx18 (R202). -/
  | setSound (x : Index)
  /-- `AddToIndex(x)`, Fx1E (R181). -/
  | addToIndex (x : Index)
  /-- `SpriteAddress(x)`, Fx29 (R182). -/
  | spriteAddress (x : Index)
  /-- `StoreBCD(x)`, Fx33 (R183). -/
  | storeBCD (x : Index)
  /-- `SaveRegisters(x)`, Fx55 (R184); `x` is the last register index stored. -/
  | saveRegisters (x : Index)
  /-- `LoadRegisters(x)`, Fx65 (R185); `x` is the last register index loaded. -/
  | loadRegisters (x : Index)
  deriving DecidableEq, Repr

end Sys2Proof
end

