-- ==== Sys2Proof/WellFormed.lean ====
section
/-! DEFINITION. Which terms of `Instr` an instruction word can hold (R92): a target address has 12 bits, a sprite has at most
15 rows. Everything else is bounded by its type. DESIGN CHOICE (log 25). -/

namespace Sys2Proof

/-- `addr = w[11:0]` "is a 12-bit address 0..4095" (R92). -/
def wfAddr (addr : Word) : Bool := decide (addr.toNat < 4096)

/-- `n = w[3:0]` "is a count 0..15 (sprite height in rows)" (R92). -/
def wfRows (n : Nat) : Bool := decide (n < 16)

/-- The instruction has an encoding. -/
def Instr.wf : Instr → Bool
  | .clear => true
  | .ret => true
  | .jump addr => wfAddr addr
  | .call addr => wfAddr addr
  | .skipIfEqualImmediate _ _ => true
  | .skipIfNotEqualImmediate _ _ => true
  | .skipIfRegistersEqual _ _ => true
  | .loadImmediate _ _ => true
  | .addImmediate _ _ => true
  | .copy _ _ => true
  | .or _ _ => true
  | .and _ _ => true
  | .xor _ _ => true
  | .add _ _ => true
  | .subXY _ _ => true
  | .shiftRight _ => true
  | .subYX _ _ => true
  | .shiftLeft _ => true
  | .skipIfRegistersNotEqual _ _ => true
  | .setIndex addr => wfAddr addr
  | .jumpPlusV0 addr => wfAddr addr
  | .random _ _ => true
  | .drawSprite _ _ n => wfRows n
  | .skipIfKeyPressed _ => true
  | .skipIfKeyNotPressed _ => true
  | .loadDelayIntoRegister _ => true
  | .waitForKey _ => true
  | .setDelay _ => true
  | .setSound _ => true
  | .addToIndex _ => true
  | .spriteAddress _ => true
  | .storeBCD _ => true
  | .saveRegisters _ => true
  | .loadRegisters _ => true

end Sys2Proof
end

