-- ==== Sys2Proof/Decode.lean ====
section
/-! DEFINITION. The decoder, total on any word and any bytes and rejecting by name (R94, R100, R102), and the encoder written
from the same table (R91 to R93). The byte order (R62) is fixed here, once. -/

namespace Sys2Proof

/-! ## Bytes and fields of an instruction word -/

/-- `hi ## lo` (R10, R62): the byte at the lower address is `w[15:8]`. -/
def wordOfBytes (hi lo : Byte) : Word := BitVec.ofNat 16 (hi.toNat * 256 + lo.toNat)

/-- `w[15:8]`. -/
def hiByte (w : Word) : Byte := BitVec.ofNat 8 (w.toNat / 256)

/-- `w[7:0]`. -/
def loByte (w : Word) : Byte := BitVec.ofNat 8 (w.toNat % 256)

/-- `x = w[11:8]` (R15, R92). -/
def fieldX (w : Word) : Index := ⟨w.toNat / 256 % 16, Nat.mod_lt _ (by decide)⟩

/-- `y = w[7:4]` (R15, R92). -/
def fieldY (w : Word) : Index := ⟨w.toNat / 16 % 16, Nat.mod_lt _ (by decide)⟩

/-- `n = w[3:0]` (R15, R92). -/
def fieldN (w : Word) : Nat := w.toNat % 16

/-- `kk = w[7:0]` (R15, R92). -/
def fieldKK (w : Word) : Byte := BitVec.ofNat 8 (w.toNat % 256)

/-- `zext_16(addr)` of `addr = w[11:0]` (R15, R92). -/
def fieldAddr (w : Word) : Word := BitVec.ofNat 16 (w.toNat % 4096)

/-! ## The table -/

/-- A row of the opcode table: it selects the words `w` with `w AND mask = pattern`, and `form` reads the operands. -/
structure OpcodeRow where
  mask : Word
  pattern : Word
  form : Word → Instr

/-- The row selects the word (R93). -/
def OpcodeRow.selects (r : OpcodeRow) (w : Word) : Bool := w &&& r.mask == r.pattern

/-- Format FIXED, mask 0xFFFF (R91, R93 rows 1 and 2). -/
def rowsFixed : List OpcodeRow := [
  ⟨0xFFFF, 0x00E0, fun _ => .clear⟩,
  ⟨0xFFFF, 0x00EE, fun _ => .ret⟩]

/-- Format X, mask 0xF0FF (R91, R93 rows 24 to 34). -/
def rowsX : List OpcodeRow := [
  ⟨0xF0FF, 0xE09E, fun w => .skipIfKeyPressed (fieldX w)⟩,
  ⟨0xF0FF, 0xE0A1, fun w => .skipIfKeyNotPressed (fieldX w)⟩,
  ⟨0xF0FF, 0xF007, fun w => .loadDelayIntoRegister (fieldX w)⟩,
  ⟨0xF0FF, 0xF00A, fun w => .waitForKey (fieldX w)⟩,
  ⟨0xF0FF, 0xF015, fun w => .setDelay (fieldX w)⟩,
  ⟨0xF0FF, 0xF018, fun w => .setSound (fieldX w)⟩,
  ⟨0xF0FF, 0xF01E, fun w => .addToIndex (fieldX w)⟩,
  ⟨0xF0FF, 0xF029, fun w => .spriteAddress (fieldX w)⟩,
  ⟨0xF0FF, 0xF033, fun w => .storeBCD (fieldX w)⟩,
  ⟨0xF0FF, 0xF055, fun w => .saveRegisters (fieldX w)⟩,
  ⟨0xF0FF, 0xF065, fun w => .loadRegisters (fieldX w)⟩]

/-- Format XY, mask 0xF00F (R91, R97; R93 rows 7, 10 to 19). In the two shifts `y` is a don't-care field (R96). -/
def rowsXY : List OpcodeRow := [
  ⟨0xF00F, 0x5000, fun w => .skipIfRegistersEqual (fieldX w) (fieldY w)⟩,
  ⟨0xF00F, 0x8000, fun w => .copy (fieldX w) (fieldY w)⟩,
  ⟨0xF00F, 0x8001, fun w => .or (fieldX w) (fieldY w)⟩,
  ⟨0xF00F, 0x8002, fun w => .and (fieldX w) (fieldY w)⟩,
  ⟨0xF00F, 0x8003, fun w => .xor (fieldX w) (fieldY w)⟩,
  ⟨0xF00F, 0x8004, fun w => .add (fieldX w) (fieldY w)⟩,
  ⟨0xF00F, 0x8005, fun w => .subXY (fieldX w) (fieldY w)⟩,
  ⟨0xF00F, 0x8006, fun w => .shiftRight (fieldX w)⟩,
  ⟨0xF00F, 0x8007, fun w => .subYX (fieldX w) (fieldY w)⟩,
  ⟨0xF00F, 0x800E, fun w => .shiftLeft (fieldX w)⟩,
  ⟨0xF00F, 0x9000, fun w => .skipIfRegistersNotEqual (fieldX w) (fieldY w)⟩]

/-- Formats ADDR, XKK and XYN, mask 0xF000 (R91; R93 rows 3 to 6, 8, 9, 20 to 23). -/
def rowsNibble : List OpcodeRow := [
  ⟨0xF000, 0x1000, fun w => .jump (fieldAddr w)⟩,
  ⟨0xF000, 0x2000, fun w => .call (fieldAddr w)⟩,
  ⟨0xF000, 0x3000, fun w => .skipIfEqualImmediate (fieldX w) (fieldKK w)⟩,
  ⟨0xF000, 0x4000, fun w => .skipIfNotEqualImmediate (fieldX w) (fieldKK w)⟩,
  ⟨0xF000, 0x6000, fun w => .loadImmediate (fieldX w) (fieldKK w)⟩,
  ⟨0xF000, 0x7000, fun w => .addImmediate (fieldX w) (fieldKK w)⟩,
  ⟨0xF000, 0xA000, fun w => .setIndex (fieldAddr w)⟩,
  ⟨0xF000, 0xB000, fun w => .jumpPlusV0 (fieldAddr w)⟩,
  ⟨0xF000, 0xC000, fun w => .random (fieldX w) (fieldKK w)⟩,
  ⟨0xF000, 0xD000, fun w => .drawSprite (fieldX w) (fieldY w) (fieldN w)⟩]

/-- The 34 rows in the order of priority: more specific masks first (R94). -/
def opcodeRows : List OpcodeRow := rowsFixed ++ rowsX ++ rowsXY ++ rowsNibble

/-! ## Decoding -/

/-- Why bytes are no instruction. -/
inductive DecodeError where
  /-- No row selects the word (R100, R101). -/
  | unknownOpcode (w : Word)
  /-- Fewer than the two bytes of an instruction were given (R90); a fetch always gives two. -/
  | truncated (given : Nat)
  deriving DecidableEq, Repr

/-- `Decode(w)`: the first row that selects the word, in the order of R94; no row: an unknown opcode. -/
def decodeWord (w : Word) : Except DecodeError Instr :=
  match opcodeRows.find? (fun r => r.selects w) with
  | some r => .ok (r.form w)
  | none => .error (.unknownOpcode w)

/-- The instruction at the head of a list of bytes, high byte first (R62, R90), and the bytes after it. -/
def decodeBytes : List Byte → Except DecodeError (Instr × List Byte)
  | hi :: lo :: rest => (decodeWord (wordOfBytes hi lo)).map (fun i => (i, rest))
  | [_] => .error (.truncated 1)
  | [] => .error (.truncated 0)

/-! ## Encoding -/

/-- The word of format ADDR (R91): the operation nibble, then twelve address bits. -/
def wordAddr (op : Nat) (addr : Word) : Word := BitVec.ofNat 16 (op * 4096 + addr.toNat % 4096)

/-- The word of format XKK (R91). -/
def wordXKK (op : Nat) (x : Index) (kk : Byte) : Word := BitVec.ofNat 16 (op * 4096 + x.val * 256 + kk.toNat)

/-- The word of format XY or XYN (R91): the low nibble is the sub-operation, or the sprite height. -/
def wordXYN (op : Nat) (x y : Index) (n : Nat) : Word :=
  BitVec.ofNat 16 (op * 4096 + x.val * 256 + y.val * 16 + n % 16)

/-- The word of format X (R91): the low byte is the sub-operation. -/
def wordX (op : Nat) (x : Index) (sub : Nat) : Word := BitVec.ofNat 16 (op * 4096 + x.val * 256 + sub % 256)

/-- The word of a well-formed instruction (R93). In the two shifts the don't-care field is 0: DESIGN CHOICE (log 18). -/
def encode : Instr → Word
  | .clear => 0x00E0
  | .ret => 0x00EE
  | .jump addr => wordAddr 0x1 addr
  | .call addr => wordAddr 0x2 addr
  | .skipIfEqualImmediate x kk => wordXKK 0x3 x kk
  | .skipIfNotEqualImmediate x kk => wordXKK 0x4 x kk
  | .skipIfRegistersEqual x y => wordXYN 0x5 x y 0x0
  | .loadImmediate x kk => wordXKK 0x6 x kk
  | .addImmediate x kk => wordXKK 0x7 x kk
  | .copy x y => wordXYN 0x8 x y 0x0
  | .or x y => wordXYN 0x8 x y 0x1
  | .and x y => wordXYN 0x8 x y 0x2
  | .xor x y => wordXYN 0x8 x y 0x3
  | .add x y => wordXYN 0x8 x y 0x4
  | .subXY x y => wordXYN 0x8 x y 0x5
  | .shiftRight x => wordXYN 0x8 x 0 0x6
  | .subYX x y => wordXYN 0x8 x y 0x7
  | .shiftLeft x => wordXYN 0x8 x 0 0xE
  | .skipIfRegistersNotEqual x y => wordXYN 0x9 x y 0x0
  | .setIndex addr => wordAddr 0xA addr
  | .jumpPlusV0 addr => wordAddr 0xB addr
  | .random x kk => wordXKK 0xC x kk
  | .drawSprite x y n => wordXYN 0xD x y n
  | .skipIfKeyPressed x => wordX 0xE x 0x9E
  | .skipIfKeyNotPressed x => wordX 0xE x 0xA1
  | .loadDelayIntoRegister x => wordX 0xF x 0x07
  | .waitForKey x => wordX 0xF x 0x0A
  | .setDelay x => wordX 0xF x 0x15
  | .setSound x => wordX 0xF x 0x18
  | .addToIndex x => wordX 0xF x 0x1E
  | .spriteAddress x => wordX 0xF x 0x29
  | .storeBCD x => wordX 0xF x 0x33
  | .saveRegisters x => wordX 0xF x 0x55
  | .loadRegisters x => wordX 0xF x 0x65

/-- The two bytes of an instruction in the order memory holds them (R62). -/
def encodeBytes (i : Instr) : List Byte := [hiByte (encode i), loByte (encode i)]

/-- The instruction the decoder reads from a word numbered as spec/opcode_table.json numbers it (bit 0 the least significant
bit of the one 16-bit word, R10), laid out as the hardware stores it, high byte first (R62). Bits at or above `nbits` are 0,
and no instruction is longer than 16 bits (R90). Log 26. -/
def decodeTableWord (nbits w : Nat) : Option Instr :=
  let v := w % 2 ^ nbits
  if v < 65536 then
    match decodeBytes [hiByte (BitVec.ofNat 16 v), loByte (BitVec.ofNat 16 v)] with
    | .ok (i, _) => some i
    | .error _ => none
  else none

end Sys2Proof
end

