-- ==== Sys2Proof/Config.lean ====
section
/-! DEFINITION. What is fixed for the machine (R7) and the one free value (R8). The open parameter FONT_TABLE is an argument
of `Machine.initializeCore`; its default stands in `Machine/Memory.lean`. -/

namespace Sys2Proof.Config

/-- MEM_SIZE: bytes of memory (R7, R31). -/
abbrev memSize : Nat := 4096

/-- PROGRAM_BASE: the reset value of pc and the address of ROM byte 0 (R7, R40, R262). -/
abbrev programBase : Nat := 0x200

/-- FONT_BASE: the address of glyph 0 (R7, R32). -/
abbrev fontBase : Nat := 0x000

/-- FONT_SIZE: sixteen glyphs of five bytes (R7, R32). -/
abbrev fontSize : Nat := 80

/-- MAX_ROM: the longest ROM that `LoadROM` accepts (R7, R262). -/
abbrev maxRom : Nat := 3584

/-- STACK_DEPTH (R7, R30). -/
abbrev stackDepth : Nat := 16

/-- FB_WIDTH (R7, R34). -/
abbrev fbWidth : Nat := 64

/-- FB_HEIGHT (R7, R34). -/
abbrev fbHeight : Nat := 32

/-- RND, the byte that the k-th `Random` of the machine's life draws: "any value 0..255, chosen afresh at every execution,
under no law" (R210). It has no body, so nothing can be proved of any draw. DESIGN CHOICE (log 1): the draw is indexed by
the model's own counter `State.draws`. -/
opaque rnd : Nat → Byte

end Sys2Proof.Config
end

