-- ==== Sys2Proof/Machine/State.lean ====
section
/-! DEFINITION. The machine's state (R20), as plain data, its value right after reset (R40), and the names of the errors.

The eleven items of R20 are the eleven fields below. The twelfth, `draws`, is the model's own: it counts the draws of RND
made so far (log 1). There is no mode, interrupt, cause or vector register (R38, R228, R229) and no error register (R227):
the status that a `Step` returns is a result (`Machine/Ops.lean`), not state (R41). -/

namespace Sys2Proof.Machine

/-- Memory as the bytes that differ from what an unlisted address reads as: addresses strictly rising, below 4096
(`Memory.wf`). What an unlisted address reads as is `Memory.unlisted`. -/
abbrev Memory := List Host.Cell

/-- The state of the core (R20). -/
structure State where
  /-- `mem`, 4096 bytes (R31). -/
  mem : Memory
  /-- `V[0..15]`, the general registers; `V[15]` is VF (R21). -/
  V : Vector Byte 16
  /-- `I`, the address register (R29). -/
  I : Word
  /-- `pc` (R24). -/
  pc : Word
  /-- `stack[0..15]`, the call-stack slots (R30). -/
  stack : Vector Word 16
  /-- `sp`, 0..16: the number of return addresses held and the index of the next free slot (R30). -/
  sp : Fin 17
  /-- `fb[0..2047]`, the pixels: pixel `p` is bit `p` (R34). -/
  fb : Frame
  /-- `redraw`, the "needs redraw" flag (R35). -/
  redraw : Bool
  /-- `DT`, the delay timer (R36). -/
  DT : Byte
  /-- `ST`, the sound timer (R36). -/
  ST : Byte
  /-- `key[0..15]`, the keypad, written by the host only (R37, R238). -/
  key : Vector Bool 16
  /-- The model's own field, not the spec's: how many times RND has been drawn (log 1, log 2). -/
  draws : Nat
  deriving DecidableEq, Repr

/-- The four error conditions, a closed list (R220). In this core NONE of them stops the machine: "No condition is fatal"
(R125, R224), so no meaning and no `step` of this model answers with a fault. They are what a `Status` reports, and what
the strict reading of R225 (`Safety.strictStep`) stops with, which is safe: it lets less be proved. -/
inductive Fault where
  /-- Reported by `Call` at `sp` = 16 (R143, R220). Safe: stops only `Safety.strictStep`. -/
  | stackOverflow
  /-- Reported by `Return` at `sp` = 0 (R141, R220). Safe: stops only `Safety.strictStep`. -/
  | stackUnderflow
  /-- Reported by `LoadROM` for more than 3584 bytes (R220, R262). Safe: it stops nothing, the load is not made. -/
  | romTooLarge
  /-- Reported by `Step` for a word that no row of the opcode table selects (R100, R220); it carries the word (R221).
  Safe: stops only `Safety.strictStep`. -/
  | unknownOpcode (w : Word)
  deriving DecidableEq, Repr

/-- The reasons the model gives an instruction no meaning. None is left: every arm of `exec` has one. -/
inductive Refusal where
  /-- Raised by an arm of `exec` whose instruction is not modelled. No arm raises it now. Safe. -/
  | notModelled (mnemonic : String)
  deriving DecidableEq, Repr

/-- What an operation returns to the host beside the new state (R18, R124, R224). -/
inductive Status where
  /-- `Ok`. -/
  | ok
  /-- One of the error conditions of R220. -/
  | error (e : Fault)
  deriving DecidableEq, Repr

/-- The machine right after reset (R40, R260). Memory lists nothing: an unlisted address reads as the default font below
0x050 and as zero above (`Memory.unlisted`, log 4). `redraw` and `key` are the spec's own choice D16 (log 15); `draws` is
this model's (DESIGN CHOICE, log 2). -/
def State.reset : State where
  mem := []
  V := Vector.replicate 16 0
  I := 0
  pc := BitVec.ofNat 16 Config.programBase
  stack := Vector.replicate 16 0
  sp := 0
  fb := 0
  redraw := false
  DT := 0
  ST := 0
  key := Vector.replicate 16 false
  draws := 0

end Sys2Proof.Machine
end

