-- ==== Sys2Proof/Machine/Memory.lean ====
section
/-! DEFINITION. Memory (R31, R60 to R77): one flat space of 4096 bytes, every access one byte, every address reduced
modulo 4096, no access able to fail and none with a side effect. -/

namespace Sys2Proof.Machine

/-- The default of the open parameter FONT_TABLE (R33, log 4), glyph by glyph. -/
def defaultFont : Vector Byte 80 := #v[
  0xF0, 0x90, 0x90, 0x90, 0xF0,
  0x20, 0x60, 0x20, 0x20, 0x70,
  0xF0, 0x10, 0xF0, 0x80, 0xF0,
  0xF0, 0x10, 0xF0, 0x10, 0xF0,
  0x90, 0x90, 0xF0, 0x10, 0x10,
  0xF0, 0x80, 0xF0, 0x10, 0xF0,
  0xF0, 0x80, 0xF0, 0x90, 0xF0,
  0xF0, 0x10, 0x20, 0x40, 0x40,
  0xF0, 0x90, 0xF0, 0x90, 0xF0,
  0xF0, 0x90, 0xF0, 0x10, 0xF0,
  0xF0, 0x90, 0xF0, 0x90, 0x90,
  0xE0, 0x90, 0xE0, 0x90, 0xE0,
  0xF0, 0x80, 0x80, 0x80, 0xF0,
  0xE0, 0x90, 0x90, 0x90, 0xE0,
  0xF0, 0x80, 0xF0, 0x80, 0xF0,
  0xF0, 0x80, 0xF0, 0x80, 0x80]

/-- The index of the byte that an address selects (R13, R60). -/
def physical (a : Nat) : Nat := a % Config.memSize

/-- What an unlisted address reads as: the reset contents, the default font at 0x000 to 0x04F and zero above (R40, R66). -/
def unlisted (a : Nat) : Byte := (defaultFont[a]?).getD 0

/-- The listed byte at an index, if there is one. -/
def Memory.find (a : Nat) : Memory → Option Byte
  | [] => none
  | (b, v) :: m => if a = b then some v else Memory.find a m

/-- List a byte, keeping the addresses rising. -/
def Memory.insert (a : Nat) (v : Byte) : Memory → Memory
  | [] => [(a, v)]
  | (b, u) :: m => if a < b then (a, v) :: (b, u) :: m else if a = b then (a, v) :: m else (b, u) :: Memory.insert a v m

/-- List no byte at an index. -/
def Memory.erase (a : Nat) (m : Memory) : Memory := m.filter (fun c => c.1 != a)

/-- `MemRead(a, 1)` (R13, R60). -/
def Memory.read (m : Memory) (a : Nat) : Byte := (Memory.find (physical a) m).getD (unlisted (physical a))

/-- `MemWrite(a, 1, v)` (R13, R60). Writing what an unlisted address reads as removes the entry. -/
def Memory.write (m : Memory) (a : Nat) (v : Byte) : Memory :=
  if v = unlisted (physical a) then Memory.erase (physical a) m else Memory.insert (physical a) v m

/-- Bytes written one by one at `a`, `a + 1`, ..., in ascending order, each address reduced on its own (R61, R76). -/
def Memory.writeBytes (m : Memory) (a : Nat) : List Byte → Memory
  | [] => m
  | v :: vs => Memory.writeBytes (Memory.write m a v) (a + 1) vs

/-- Every listed address is above `lo`, below 4096 and above the one before it, and holds something other than what an
unlisted address reads as. -/
def Memory.wfAbove : Option Nat → Memory → Bool
  | _, [] => true
  | lo, (a, v) :: m =>
    (match lo with | none => true | some b => decide (b < a)) && decide (a < Config.memSize) && v != unlisted a &&
      Memory.wfAbove (some a) m

/-- The canonical form: equal memories are equal data. -/
def Memory.wf (m : Memory) : Bool := Memory.wfAbove none m

end Sys2Proof.Machine
end

