-- ==== Sys2Proof/Machine/Ops.lean ====
section
/-! DEFINITION. The named operations every meaning is written from: reads and writes of registers, memory, stack and screen,
the fetch and the advance of pc (R120), and the error primitive (R14), which is this core's whole exception mechanism: an
error transfers no control and saves nothing (R222), so there is no handler to enter and no return from one (R226). -/

namespace Sys2Proof.Machine

/-! ## Registers -/

/-- `V[x]` (R12). -/
def State.reg (s : State) (x : Index) : Byte := s.V[x]

/-- `V[x] <- v` (R12). No register is hard-wired (R21). -/
def State.setReg (s : State) (x : Index) (v : Byte) : State := { s with V := s.V.set x.val v x.isLt }

/-- All sixteen registers at once. -/
def State.setV (s : State) (V : Vector Byte 16) : State := { s with V := V }

/-- `I <- a` (R29). -/
def State.setI (s : State) (a : Word) : State := { s with I := a }

/-- `pc <- a` (R24). -/
def State.setPc (s : State) (a : Word) : State := { s with pc := a }

/-- `DT <- v` (R36). -/
def State.setDT (s : State) (v : Byte) : State := { s with DT := v }

/-- `ST <- v` (R36). -/
def State.setST (s : State) (v : Byte) : State := { s with ST := v }

/-- `key[k] <- keys[k]` for every `k`: the host's write (R238). -/
def State.setKeys (s : State) (keys : Vector Bool 16) : State := { s with key := keys }

/-- `redraw <- b` (R35, R241). -/
def State.setRedraw (s : State) (b : Bool) : State := { s with redraw := b }

/-- The whole framebuffer, with the redraw flag set as `Clear` and `DrawSprite` set it (R35). -/
def State.paint (s : State) (fb : Frame) : State := { s with fb := fb, redraw := true }

/-- The next draw of RND is used up (R210, log 1). -/
def State.drawn (s : State) : State := { s with draws := s.draws + 1 }

/-! ## Memory -/

/-- The whole memory. -/
def State.setMem (s : State) (m : Memory) : State := { s with mem := m }

/-- `MemRead(a, 1)` (R13). -/
def State.readByte (s : State) (a : Nat) : Byte := s.mem.read a

/-- `MemWrite(a + k, 1, bytes[k])` for `k` = 0, 1, ... (R61, R76). -/
def State.writeBytes (s : State) (a : Nat) (bytes : List Byte) : State := s.setMem (s.mem.writeBytes a bytes)

/-! ## Call stack -/

/-- `stack[sp] <- a; sp <- sp + 1`, for `sp` below 16 (R30, R143). -/
def State.push (s : State) (a : Word) (h : s.sp.val < 16) : State :=
  { s with stack := s.stack.set s.sp.val a h, sp := ⟨s.sp.val + 1, Nat.succ_lt_succ h⟩ }

/-- `sp <- sp - 1; pc <- stack[sp]`, for `sp` above 0 (R30, R141). The popped slot keeps its value (log 16). -/
def State.popPc (s : State) (h : 0 < s.sp.val) : State :=
  { s with
    pc := s.stack[s.sp.val - 1]'(by have := s.sp.isLt; omega)
    sp := ⟨s.sp.val - 1, by have := s.sp.isLt; omega⟩ }

/-! ## Results and errors -/

/-- What an operation returns: the new state and the status (R120, R124). -/
abbrev Result := State × Status

/-- An operation that met no error. -/
def done (s : State) : Result := (s, .ok)

/-- `raise E` (R14): no further state change, and the operation returns `E`. What stood before (the advance of pc) stands
(R129). This is what taking an exception is on this core (R222, R224). -/
def raise (e : Fault) (s : State) : Result := (s, .error e)

/-! ## Fetch and advance -/

/-- The word at pc (R62, R120, R121): two byte reads, high byte at the lower address. -/
def State.fetchWord (s : State) : Word := wordOfBytes (s.readByte s.pc.toNat) (s.readByte (s.pc.toNat + 1))

/-- `pc <- (pc + 2) mod 65536`, before the execute phase, for every word (R120, R122). -/
def State.advancePc (s : State) : State := s.setPc (s.pc + 2)

/-- What a `Step` does after the advance when no operation matches the word (R100, R120): nothing, and it reports. -/
def unknownOpcode (w : Word) (s : State) : Result := raise (.unknownOpcode w) s

/-- A word stored where `pc` points, high byte first (R62). -/
def State.placeWord (s : State) (w : Word) : State := s.writeBytes s.pc.toNat [hiByte w, loByte w]

/-- The state of a `next` outcome. -/
def nextState? : Host.Outcome State Fault Refusal → Option State
  | .next s => some s
  | .fault _ => none
  | .refused _ => none

end Sys2Proof.Machine
end

