-- ==== Sys2Proof/Machine/Operands.lean ====
section
/-! DEFINITION. The operand forms: what an operation reads, beside a plain register or immediate (R92, R67). All operands are
read before anything is written (R28, log 11). -/

namespace Sys2Proof.Machine

/-- The address of data byte `k` of an operation: "`I + i`" (R67). The reduction modulo 4096 is the accessor's (R60). -/
def State.dataAddr (s : State) (k : Nat) : Nat := s.I.toNat + k

/-- `V[x][3:0]`, the key that a key skip tests (R203, R204, R207, log 13). -/
def keyIndex (v : Byte) : Index := ⟨v.toNat % 16, Nat.mod_lt _ (by decide)⟩

/-- `key[k]` (R37). -/
def State.pressed (s : State) (k : Index) : Bool := s.key[k]

/-- The least pressed key (R205, R208, log 14). -/
def State.lowestPressed (s : State) : Option Index := (List.finRange 16).find? (fun k => s.pressed k)

/-- `V[0], ..., V[x]` (R184). -/
def State.regsUpTo (s : State) (x : Index) : List Byte := s.V.toList.take (x.val + 1)

/-- The target of `JumpPlusV0` (R144): the sum is not reduced to 12 bits. -/
def jumpTarget (addr : Word) (v0 : Byte) : Word := addr + zext16 v0

/-- The address of the glyph of a byte (R182): the whole byte is multiplied (log 17). -/
def glyphAddr (v : Byte) : Word := zext16 v * 5

/-- Hundreds, tens and ones of a byte, one byte a digit (R183). -/
def bcdDigits (v : Byte) : List Byte :=
  [BitVec.ofNat 8 (v.toNat / 100), BitVec.ofNat 8 (v.toNat / 10 % 10), BitVec.ofNat 8 (v.toNat % 10)]

/-! The double-dabble algorithm that R183 names, kept beside `bcdDigits`, which the spec makes normative (R186). -/

/-- Add 3 to the decimal digit at bit `lo` if it is 5 or more (R186). -/
def adjustDigit (lo : Nat) (scratch : Nat) : Nat :=
  if scratch / 2 ^ lo % 16 ≥ 5 then scratch + 3 * 2 ^ lo else scratch

/-- One round of R186: correct the ones, the tens and the hundreds, then shift left within 20 bits. -/
def dabbleRound (scratch : Nat) : Nat :=
  adjustDigit 16 (adjustDigit 12 (adjustDigit 8 scratch)) * 2 % 2 ^ 20

/-- `k` rounds. -/
def dabbleRounds : Nat → Nat → Nat
  | 0, scratch => scratch
  | k + 1, scratch => dabbleRounds k (dabbleRound scratch)

/-- Hundreds, tens and ones by double dabble (R186). -/
def doubleDabble (v : Byte) : List Byte :=
  let scratch := dabbleRounds 8 v.toNat
  [BitVec.ofNat 8 (scratch / 2 ^ 16 % 16), BitVec.ofNat 8 (scratch / 2 ^ 12 % 16), BitVec.ofNat 8 (scratch / 2 ^ 8 % 16)]

end Sys2Proof.Machine
end

