-- ==== Sys2Proof/Machine/Flags.lean ====
section
/-! DEFINITION. The flag computations (R26), each from the values before the operation, and the one way a flag is written:
into VF, last (R28, log 11). -/

namespace Sys2Proof.Machine

/-- A flag as VF holds it: 0x00 or 0x01 (R26). -/
def flagByte (b : Bool) : Byte := if b then 1 else 0

/-- `Add`: "1 if V[x] + V[y] > 255" (R26, R166). -/
def carryFlag (a b : Byte) : Bool := decide (a.toNat + b.toNat > 255)

/-- `SubXY` and, with its operands exchanged, `SubYX`: strictly greater (R26, R167, R168). -/
def greaterFlag (a b : Byte) : Bool := decide (a.toNat > b.toNat)

/-- `ShiftRight`: the bit shifted out (R26, R169). -/
def lowBitFlag (a : Byte) : Bool := a.getLsbD 0

/-- `ShiftLeft`: the bit shifted out (R26, R170). -/
def highBitFlag (a : Byte) : Bool := a.getLsbD 7

/-- `VF <- f`. -/
def State.setFlag (s : State) (f : Bool) : State := s.setReg VF (flagByte f)

/-- `V[x] <- r`, then `VF <- f`: with `x` = F the result is lost (R28). -/
def State.setRegFlag (s : State) (x : Index) (r : Byte) (f : Bool) : State := (s.setReg x r).setFlag f

end Sys2Proof.Machine
end

