-- ==== Sys2Proof/Machine/Alu.lean ====
section
/-! DEFINITION. The eleven register and ALU operations (R160 to R171). Arithmetic is unsigned on 8 bits and wraps (R23). -/

namespace Sys2Proof.Machine

/-- `LoadImmediate(x,kk)` (R160). -/
def execLoadImmediate (x : Index) (kk : Byte) (s : State) : Host.Outcome State Fault Refusal := .next (s.setReg x kk)

/-- `AddImmediate(x,kk)` (R161): wraps, no flag. -/
def execAddImmediate (x : Index) (kk : Byte) (s : State) : Host.Outcome State Fault Refusal :=
  .next (s.setReg x (s.reg x + kk))

/-- `Copy(x,y)` (R162). -/
def execCopy (x y : Index) (s : State) : Host.Outcome State Fault Refusal := .next (s.setReg x (s.reg y))

/-- `Or(x,y)` (R163): VF untouched. -/
def execOr (x y : Index) (s : State) : Host.Outcome State Fault Refusal := .next (s.setReg x (s.reg x ||| s.reg y))

/-- `And(x,y)` (R164): VF untouched. -/
def execAnd (x y : Index) (s : State) : Host.Outcome State Fault Refusal := .next (s.setReg x (s.reg x &&& s.reg y))

/-- `Xor(x,y)` (R165): VF untouched. -/
def execXor (x y : Index) (s : State) : Host.Outcome State Fault Refusal := .next (s.setReg x (s.reg x ^^^ s.reg y))

/-- `Add(x,y)` (R166). -/
def execAdd (x y : Index) (s : State) : Host.Outcome State Fault Refusal :=
  .next (s.setRegFlag x (s.reg x + s.reg y) (carryFlag (s.reg x) (s.reg y)))

/-- `SubXY(x,y)` (R167): equal operands give flag 0. -/
def execSubXY (x y : Index) (s : State) : Host.Outcome State Fault Refusal :=
  .next (s.setRegFlag x (s.reg x - s.reg y) (greaterFlag (s.reg x) (s.reg y)))

/-- `SubYX(x,y)` (R168): the destination is still `V[x]`. -/
def execSubYX (x y : Index) (s : State) : Host.Outcome State Fault Refusal :=
  .next (s.setRegFlag x (s.reg y - s.reg x) (greaterFlag (s.reg y) (s.reg x)))

/-- `ShiftRight(x)` (R169): logical, by one; `V[y]` takes no part (R96). -/
def execShiftRight (x : Index) (s : State) : Host.Outcome State Fault Refusal :=
  .next (s.setRegFlag x (s.reg x >>> 1) (lowBitFlag (s.reg x)))

/-- `ShiftLeft(x)` (R170): by one; `V[y]` takes no part (R96). -/
def execShiftLeft (x : Index) (s : State) : Host.Outcome State Fault Refusal :=
  .next (s.setRegFlag x (s.reg x <<< 1) (highBitFlag (s.reg x)))

end Sys2Proof.Machine
end

