-- ==== Sys2Proof/Machine/Control.lean ====
section
/-! DEFINITION. Control flow: `Clear`, `Return`, `Jump`, `Call`, `JumpPlusV0` (R140 to R145). In every meaning of this model
`s.pc` is already the address of the instruction plus 2 (R122). -/

namespace Sys2Proof.Machine

/-- `Clear` (R140): every pixel 0, the redraw flag set, always. -/
def execClear (s : State) : Host.Outcome State Fault Refusal := .next (s.paint 0)

/-- `Return` with its status (R141). -/
def returnResult (s : State) : Result :=
  if h : 0 < s.sp.val then done (s.popPc h) else raise .stackUnderflow s

/-- `Return` (R141): the machine goes on after a stack error (R129, log 12). -/
def execReturn (s : State) : Host.Outcome State Fault Refusal := .next (returnResult s).1

/-- `Jump(addr)` (R142). -/
def execJump (addr : Word) (s : State) : Host.Outcome State Fault Refusal := .next (s.setPc addr)

/-- `Call(addr)` with its status (R143): the pc pushed is the advanced one. -/
def callResult (addr : Word) (s : State) : Result :=
  if h : s.sp.val < 16 then done ((s.push s.pc h).setPc addr) else raise .stackOverflow s

/-- `Call(addr)` (R143): the machine goes on after a stack error (R129, log 12). -/
def execCall (addr : Word) (s : State) : Host.Outcome State Fault Refusal := .next (callResult addr s).1

/-- `JumpPlusV0(addr)` (R144). -/
def execJumpPlusV0 (addr : Word) (s : State) : Host.Outcome State Fault Refusal := .next (s.setPc (jumpTarget addr (s.reg 0)))

end Sys2Proof.Machine
end

