-- ==== Sys2Proof/Machine/Display.lean ====
section
/-! DEFINITION. The display compositor (R190 to R193) and the reading of a pixel (R34). -/

namespace Sys2Proof.Machine

/-- The framebuffer index of the pixel a coordinate pair falls on, wrapping at the right and the bottom edge
(R34, R190, R192, log 9). -/
def pixelIndex (x y : Nat) : Nat := x % Config.fbWidth + Config.fbWidth * (y % Config.fbHeight)

/-- `fb[p]` (R34). -/
def pixel (fb : Frame) (p : Nat) : Bool := fb.getLsbD p

/-- Column `col` of a sprite row: bit 7 is column 0, the leftmost (R191, log 10). -/
def spriteBit (b : Byte) (col : Nat) : Bool := b.getLsbD (7 - col)

/-- One sprite bit at framebuffer index `p`: the framebuffer and the collision so far, and after (R190). -/
def drawPixel (bit : Bool) (p : Nat) (acc : Frame × Bool) : Frame × Bool :=
  if bit then (acc.1 ^^^ BitVec.twoPow 2048 p, acc.2 || pixel acc.1 p) else acc

/-- One sprite row, columns 0 to 7 (R190). -/
def drawRow (x y : Nat) (b : Byte) (acc : Frame × Bool) : Frame × Bool :=
  (List.range 8).foldl (fun a col => drawPixel (spriteBit b col) (pixelIndex (x + col) y) a) acc

/-- Sprite rows 0 to n - 1, row `r` read at `I + r` (R190). -/
def State.drawRows (s : State) (x y n : Nat) : Frame × Bool :=
  (List.range n).foldl (fun a r => drawRow x (y + r) (s.readByte (s.dataAddr r)) a) (s.fb, false)

/-- `DrawSprite(x,y,n)` (R190): the coordinates are read before VF is written; VF and the redraw flag are written on every
execution. -/
def execDrawSprite (x y : Index) (n : Nat) (s : State) : Host.Outcome State Fault Refusal :=
  let drawing := s.drawRows (s.reg x).toNat (s.reg y).toNat n
  .next ((s.paint drawing.1).setFlag drawing.2)

end Sys2Proof.Machine
end

