-- ==== Sys2Proof/Machine/MemoryIndex.lean ====
section
/-! DEFINITION. The six memory and address-register operations (R180 to R186). None changes `I` by accessing memory (R29). -/

namespace Sys2Proof.Machine

/-- `SetIndex(addr)` (R180). -/
def execSetIndex (addr : Word) (s : State) : Host.Outcome State Fault Refusal := .next (s.setI addr)

/-- `AddToIndex(x)` (R181): modulo 65536, no flag (log 8). -/
def execAddToIndex (x : Index) (s : State) : Host.Outcome State Fault Refusal := .next (s.setI (s.I + zext16 (s.reg x)))

/-- `SpriteAddress(x)` (R182). -/
def execSpriteAddress (x : Index) (s : State) : Host.Outcome State Fault Refusal := .next (s.setI (glyphAddr (s.reg x)))

/-- `StoreBCD(x)` (R183): hundreds at `I`, tens at `I + 1`, ones at `I + 2`. -/
def execStoreBCD (x : Index) (s : State) : Host.Outcome State Fault Refusal :=
  .next (s.writeBytes (s.dataAddr 0) (bcdDigits (s.reg x)))

/-- `SaveRegisters(x)` (R184): `V[k]` at `I + k` for `k` = 0..x. -/
def execSaveRegisters (x : Index) (s : State) : Host.Outcome State Fault Refusal :=
  .next (s.writeBytes (s.dataAddr 0) (s.regsUpTo x))

/-- `V[k] <- MemRead(I + k, 1)` for `k` = 0..n-1, ascending (R185). -/
def State.loadRegs (s : State) (n : Nat) : Vector Byte 16 :=
  (List.range n).foldl (fun V k => V.setIfInBounds k (s.readByte (s.dataAddr k))) s.V

/-- `LoadRegisters(x)` (R185). -/
def execLoadRegisters (x : Index) (s : State) : Host.Outcome State Fault Refusal := .next (s.setV (s.loadRegs (x.val + 1)))

end Sys2Proof.Machine
end

