-- ==== Sys2Proof/Machine/Random.lean ====
section
/-! DEFINITION. `Random`, the thirty-fourth operation (R210, R211). -/

namespace Sys2Proof.Machine

/-- `Random(x,kk)` (R210): `V[x] <- RND AND kk`. RND is a free value (log 1): the next draw of an opaque sequence. -/
def execRandom (x : Index) (kk : Byte) (s : State) : Host.Outcome State Fault Refusal :=
  .next ((s.setReg x (Config.rnd s.draws &&& kk)).drawn)

end Sys2Proof.Machine
end

