-- ==== Sys2Proof/Machine/Skips.lean ====
section
/-! DEFINITION. The four comparisons and skips (R150 to R154). -/

namespace Sys2Proof.Machine

/-- The additional advance of a skip: `if c: pc <- (pc + 2) mod 65536` (R150 to R154). -/
def State.skipIf (s : State) (c : Bool) : State := if c then s.setPc (s.pc + 2) else s

/-- `SkipIfEqualImmediate(x,kk)` (R150). -/
def execSkipIfEqualImmediate (x : Index) (kk : Byte) (s : State) : Host.Outcome State Fault Refusal :=
  .next (s.skipIf (s.reg x == kk))

/-- `SkipIfNotEqualImmediate(x,kk)` (R151). -/
def execSkipIfNotEqualImmediate (x : Index) (kk : Byte) (s : State) : Host.Outcome State Fault Refusal :=
  .next (s.skipIf (s.reg x != kk))

/-- `SkipIfRegistersEqual(x,y)` (R152). -/
def execSkipIfRegistersEqual (x y : Index) (s : State) : Host.Outcome State Fault Refusal :=
  .next (s.skipIf (s.reg x == s.reg y))

/-- `SkipIfRegistersNotEqual(x,y)` (R153). -/
def execSkipIfRegistersNotEqual (x y : Index) (s : State) : Host.Outcome State Fault Refusal :=
  .next (s.skipIf (s.reg x != s.reg y))

end Sys2Proof.Machine
end

