-- ==== Sys2Proof/Machine/TimerInput.lean ====
section
/-! DEFINITION. The six timer and input operations (R200 to R208). -/

namespace Sys2Proof.Machine

/-- `LoadDelayIntoRegister(x)` (R200). -/
def execLoadDelayIntoRegister (x : Index) (s : State) : Host.Outcome State Fault Refusal := .next (s.setReg x s.DT)

/-- `SetDelay(x)` (R201). -/
def execSetDelay (x : Index) (s : State) : Host.Outcome State Fault Refusal := .next (s.setDT (s.reg x))

/-- `SetSound(x)` (R202). -/
def execSetSound (x : Index) (s : State) : Host.Outcome State Fault Refusal := .next (s.setST (s.reg x))

/-- `SkipIfKeyPressed(x)` (R203). -/
def execSkipIfKeyPressed (x : Index) (s : State) : Host.Outcome State Fault Refusal :=
  .next (s.skipIf (s.pressed (keyIndex (s.reg x))))

/-- `SkipIfKeyNotPressed(x)` (R204). -/
def execSkipIfKeyNotPressed (x : Index) (s : State) : Host.Outcome State Fault Refusal :=
  .next (s.skipIf (!s.pressed (keyIndex (s.reg x))))

/-- `WaitForKey(x)` (R205): the least pressed key, or, with none pressed, the advance of pc undone, so that the same
instruction is met again. Waiting is no error (R124). -/
def execWaitForKey (x : Index) (s : State) : Host.Outcome State Fault Refusal :=
  match s.lowestPressed with
  | some k => .next (s.setReg x (BitVec.ofNat 8 k.val))
  | none => .next (s.setPc (s.pc - 2))

end Sys2Proof.Machine
end

