-- ==== Sys2Proof/Machine/Report.lean ====
section
/-! DEFINITION. The status a `Step` returns beside the state (R120, R124). It is a result, not state (R41, R227, log 20). -/

namespace Sys2Proof.Machine

/-- The status of an operation run at a state whose pc is already advanced: only `Call` and `Return` can meet an error, each
one of its own (R223). -/
def instrStatus (i : Instr) (s : State) : Status :=
  match i with
  | .clear => .ok
  | .ret => (returnResult s).2
  | .jump _ => .ok
  | .call addr => (callResult addr s).2
  | .skipIfEqualImmediate _ _ => .ok
  | .skipIfNotEqualImmediate _ _ => .ok
  | .skipIfRegistersEqual _ _ => .ok
  | .loadImmediate _ _ => .ok
  | .addImmediate _ _ => .ok
  | .copy _ _ => .ok
  | .or _ _ => .ok
  | .and _ _ => .ok
  | .xor _ _ => .ok
  | .add _ _ => .ok
  | .subXY _ _ => .ok
  | .shiftRight _ => .ok
  | .subYX _ _ => .ok
  | .shiftLeft _ => .ok
  | .skipIfRegistersNotEqual _ _ => .ok
  | .setIndex _ => .ok
  | .jumpPlusV0 _ => .ok
  | .random _ _ => .ok
  | .drawSprite _ _ _ => .ok
  | .skipIfKeyPressed _ => .ok
  | .skipIfKeyNotPressed _ => .ok
  | .loadDelayIntoRegister _ => .ok
  | .waitForKey _ => .ok
  | .setDelay _ => .ok
  | .setSound _ => .ok
  | .addToIndex _ => .ok
  | .spriteAddress _ => .ok
  | .storeBCD _ => .ok
  | .saveRegisters _ => .ok
  | .loadRegisters _ => .ok

/-- The status that `Step` returns (R120, R124). -/
def stepStatus (s : State) : Status :=
  match decodeWord s.fetchWord with
  | .ok i => instrStatus i s.advancePc
  | .error _ => (unknownOpcode s.fetchWord s.advancePc).2

end Sys2Proof.Machine
end

