-- ==== Sys2Proof/Machine/Step.lean ====
section
/-! DEFINITION. `Step` (R120): fetch, advance, decode, dispatch and execute. -/

namespace Sys2Proof.Machine

/-- One instruction (R120). An unknown opcode is no stop: only the advance of pc remains of it (R100, R129). -/
def step (s : State) : Host.Outcome State Fault Refusal :=
  match decodeWord s.fetchWord with
  | .ok i => exec i s.advancePc
  | .error _ => .next (unknownOpcode s.fetchWord s.advancePc).1

/-- The state with the word of an instruction, numbered as spec/opcode_table.json numbers it, stored where `step` fetches its
next instruction: at `pc`, high byte first (R62). It stands for the host's loading of a program (log 22). -/
def State.withFetchWord (s : State) (nbits w : Nat) : State := s.placeWord (BitVec.ofNat 16 (w % 2 ^ nbits))

end Sys2Proof.Machine
end

