-- ==== Sys2Proof/Machine/HostOps.lean ====
section
/-! DEFINITION. The host interface, complete (R243): six operations that change the state, each atomic and invoked one at a
time (R9, R76), and one observation. -/

namespace Sys2Proof.Machine

/-- `Initialize` (R260), for any font table (R8, D17): every item of R20 takes its reset value. The model's own counter of
draws is kept, so that no draw made before is met again after (log 2). -/
def initializeCore (font : Vector Byte 80) (s : State) : State :=
  { State.reset with mem := Memory.writeBytes [] Config.fontBase font.toList, draws := s.draws }

/-- `LoadROM(bytes)` (R262): all bytes from 0x200 on, or, for more than 3584 of them, none. -/
def loadRom (bytes : List Byte) (s : State) : Result :=
  if bytes.length > Config.maxRom then raise .romTooLarge s else done (s.writeBytes Config.programBase bytes)

/-- One timer's tick: "if delay>0, delay -= 1" (R230). -/
def tickByte (t : Byte) : Byte := if t.toNat > 0 then t - 1 else t

/-- `TickTimers` (R230): invoked by the host only, never by a `Step` (R231). -/
def tickTimers (s : State) : State := (s.setDT (tickByte s.DT)).setST (tickByte s.ST)

/-- The redraw clear (R241). -/
def clearRedraw (s : State) : State := s.setRedraw false

/-- The framebuffer export (R240): pixels 0 to 2047 in index order, and the redraw flag. -/
def exportFrame (s : State) : List Bool × Bool := ((List.range 2048).map (pixel s.fb), s.redraw)

/-- The operations by which the host changes the state (R9, R243). -/
inductive HostOp where
  /-- `Initialize` (R260). -/
  | initializeCore
  /-- `LoadROM(bytes)` (R262). -/
  | loadRom (bytes : List Byte)
  /-- `Step` (R120). -/
  | step
  /-- `TickTimers` (R230). -/
  | tickTimers
  /-- A keypad update: the sixteen levels from now on (R238). -/
  | setKeys (keys : Vector Bool 16)
  /-- The redraw clear (R241). -/
  | clearRedraw
  deriving DecidableEq, Repr

/-- What an operation makes of the state, on a machine whose font table is `font`. -/
def hostOp (font : Vector Byte 80) (op : HostOp) (s : State) : Host.Outcome State Fault Refusal :=
  match op with
  | .initializeCore => .next (initializeCore font s)
  | .loadRom bytes => .next (loadRom bytes s).1
  | .step => step s
  | .tickTimers => .next (tickTimers s)
  | .setKeys keys => .next (s.setKeys keys)
  | .clearRedraw => .next (clearRedraw s)

/-- The status the operation returns (R243); an operation that returns nothing counts as `Ok`. -/
def hostStatus (op : HostOp) (s : State) : Status :=
  match op with
  | .initializeCore => .ok
  | .loadRom bytes => (loadRom bytes s).2
  | .step => stepStatus s
  | .tickTimers => .ok
  | .setKeys _ => .ok
  | .clearRedraw => .ok

/-- The host's operations one after another: "the execution of the whole machine is one sequence of indivisible operations"
(R71). Every schedule of ticks, keys and steps is a list (R232, log 21). -/
def hostRun (font : Vector Byte 80) : List HostOp → State → Host.Outcome State Fault Refusal
  | [], s => .next s
  | op :: ops, s =>
    match hostOp font op s with
    | .next t => hostRun font ops t
    | .fault e => .fault e
    | .refused r => .refused r

end Sys2Proof.Machine
end

