-- ==== Sys2Proof/Safety.lean ====
section
/-! DEFINITION. The notions that claims about runs are stated with: the state invariant (R43), the strict reading of errors
(R225), the start-up order (R264), the end of a run (R247) where a
sprite bit falls (R190) and what a store leaves at an address (R67). -/

namespace Sys2Proof.Safety

open Sys2Proof.Machine

/-- The state invariant. Of R43, every bound is the type of its field (`sp` is a `Fin 17`, and so on); what is left is the
model's own canonical form of memory. -/
def Invariant (s : State) : Prop := s.mem.wf = true

/-- The strict reading of R225: "treating any non-`Ok` status as a fault of the run". The hardware itself continues, as
`step` does. -/
def strictStep (s : State) : Host.Outcome State Fault Refusal :=
  match stepStatus s with
  | .ok => step s
  | .error e => .fault e

/-- The state in which a program's first instruction runs: `Initialize`, then one `LoadROM` that returned `Ok` (R264). -/
def Booted (font : Vector Byte 80) (rom : List Byte) (s : State) : Prop :=
  ∃ s₀, loadRom rom (initializeCore font s₀) = (s, .ok)

/-- "The first state in which the word at pc is a `Jump` to pc itself" (R247): a definition for observation only. -/
def endOfRun (s : State) : Bool :=
  match decodeWord s.fetchWord with
  | .ok (.jump addr) => addr == s.pc
  | .ok _ => false
  | .error _ => false

/-- The sprite bit that falls on column `X` of row `Y` of the screen (R190 to R192), if the sprite reaches it: the sprite's own
column is the distance from `Vx` to `X` around a row of 64, its row the distance from `Vy` to `Y` around 32 rows. -/
def spriteLights (s : State) (x y : Index) (n X Y : Nat) : Bool :=
  let col := (X + 64 - (s.V[x]).toNat % 64) % 64
  let row := (Y + 32 - (s.V[y]).toNat % 32) % 32
  decide (row < n) && decide (col < 8) && (s.readByte (s.dataAddr row)).getLsbD (7 - col)

/-- The byte at an address after a store of `bytes` from `I` on (R61, R67): the stored byte whose offset is the distance from `I`
to the address around the 4096 bytes, if the store reaches so far, else the byte as it was. -/
def byteAfterStore (s : State) (bytes : List Byte) (a : Nat) : Byte :=
  (bytes[(a % 4096 + 4096 - s.I.toNat % 4096) % 4096]?).getD (s.readByte a)

end Sys2Proof.Safety
end

