-- ==== Sys2Proof/Certificates/Slice0/Obligations.lean ====
section
/-! DEFINITION. The statements for the provers. Each docstring names the rules of spec/ it formalises, and every clause that
rests on a decision the spec marks as its own (D<n> of 92_eei_decisions.md) or on an entry of the assumption log. In all
statements about `exec` the state's `pc` is the advanced one (R122): the address of the instruction plus 2. -/

open Sys2Proof Sys2Proof.Machine Sys2Proof.Safety

/-! ## Reset -/

/-- `Initialize` (R260, R40), for every font table: memory holds the font and zeros, and every register has its reset value.
The values of `redraw` and `key` are the spec's own decision D16 (log 15). -/
def Obligations.InitializeSetsEveryItem : Prop :=
  ∀ (font : Vector Byte 80) (s : State),
    (∀ (a : Nat) (h : a < 80), (initializeCore font s).readByte a = font[a]) ∧
    (∀ a, 80 ≤ a → a < 4096 → (initializeCore font s).readByte a = 0) ∧
    (∀ x, (initializeCore font s).reg x = 0) ∧
    (initializeCore font s).I = 0 ∧ (initializeCore font s).pc = 0x0200 ∧ (initializeCore font s).sp = 0 ∧
    (∀ j : Fin 16, (initializeCore font s).stack[j] = 0) ∧
    (∀ p < 2048, pixel (initializeCore font s).fb p = false) ∧
    (initializeCore font s).redraw = false ∧
    (initializeCore font s).DT = 0 ∧ (initializeCore font s).ST = 0 ∧
    ∀ k : Fin 16, (initializeCore font s).key[k] = false

/-- The model's reset state is what `Initialize` gives with the default font of R33 (D17, log 4). -/
def Obligations.ResetIsInitializeWithDefaultFont : Prop := initializeCore defaultFont State.reset = State.reset

/-! ## Invariant -/

/-- Reset memory is in canonical form. -/
def Obligations.ResetMeetsInvariant : Prop := Invariant State.reset

/-- Every `Step` keeps the invariant (R43 and the model's canonical form of memory, log 5). -/
def Obligations.StepKeepsInvariant : Prop := ∀ s t, Invariant s → step s = .next t → Invariant t

/-- Every sequence of host operations (R243), in any order and number, completes and keeps the invariant. -/
def Obligations.HostRunKeepsInvariant : Prop :=
  ∀ (font : Vector Byte 80) (ops : List HostOp) (s : State), Invariant s → ∃ t, hostRun font ops s = .next t ∧ Invariant t

/-! ## Encoding -/

/-- Decoding the two bytes of a well-formed instruction gives it back, with every operand, and leaves the bytes after it. -/
def Obligations.DecodeOfEncodeGivesInstructionBack : Prop :=
  ∀ (i : Instr) (rest : List Byte), i.wf = true → decodeBytes (encodeBytes i ++ rest) = .ok (i, rest)

/-- A decoded instruction is well formed and encodes to the word it came from, but for the don't-care field of the two shifts
(R96, D28, log 18), which the encoder writes as 0. -/
def Obligations.DecodedInstructionEncodesBack : Prop :=
  ∀ (w : Word) (i : Instr), decodeWord w = .ok i →
    i.wf = true ∧
      encode i = match i with
        | .shiftRight _ => w &&& 0xFF0F
        | .shiftLeft _ => w &&& 0xFF0F
        | _ => w

/-- R95: no word is selected by two rows of the table, so the order of R94 never breaks a tie; there are 34 rows (R93). -/
def Obligations.NoWordMatchesTwoRows : Prop :=
  opcodeRows.length = 34 ∧ opcodeRows.Pairwise (fun r r' => ∀ w, ¬ (r.selects w = true ∧ r'.selects w = true))

/-- R101: the unknown words, exhaustively. The classes 0nnn, 5xy1 to 5xyF and 9xy1 to 9xyF are the spec's own decisions D3 and
D4 (log 19). -/
def Obligations.UnknownWordsAreExactlyTheListed : Prop :=
  ∀ w : Word, decodeWord w = .error (.unknownOpcode w) ↔
    (w.toNat / 4096 = 0 ∧ w.toNat ≠ 0x00E0 ∧ w.toNat ≠ 0x00EE) ∨
    ((w.toNat / 4096 = 5 ∨ w.toNat / 4096 = 9) ∧ w.toNat % 16 ≠ 0) ∨
    (w.toNat / 4096 = 8 ∧ w.toNat % 16 ∈ [0x8, 0x9, 0xA, 0xB, 0xC, 0xD, 0xF]) ∨
    (w.toNat / 4096 = 0xE ∧ w.toNat % 256 ∉ [0x9E, 0xA1]) ∨
    (w.toNat / 4096 = 0xF ∧ w.toNat % 256 ∉ [0x07, 0x0A, 0x15, 0x18, 0x1E, 0x29, 0x33, 0x55, 0x65])

/-- A word of each family, written out from the spec's examples and vectors, decodes to the operation it stands for. -/
def Obligations.SpecExampleWordsDecode : Prop :=
  decodeBytes [0x00, 0xEE] = .ok (.ret, []) ∧
  decodeBytes [0x22, 0x10] = .ok (.call 0x210, []) ∧
  decodeBytes [0x3A, 0x42] = .ok (.skipIfEqualImmediate 0xA 0x42, []) ∧
  decodeBytes [0x81, 0x24] = .ok (.add 1 2, []) ∧
  decodeBytes [0x81, 0x2E] = .ok (.shiftLeft 1, []) ∧
  decodeBytes [0xA3, 0x00] = .ok (.setIndex 0x300, []) ∧
  decodeBytes [0xC3, 0x0F] = .ok (.random 3 0x0F, []) ∧
  decodeBytes [0xD1, 0x25] = .ok (.drawSprite 1 2 5, []) ∧
  decodeBytes [0xE3, 0xA1] = .ok (.skipIfKeyNotPressed 3, []) ∧
  decodeBytes [0xF2, 0x65] = .ok (.loadRegisters 2, []) ∧
  decodeBytes [0x81, 0x28] = .error (.unknownOpcode 0x8128)

/-- R92: every operand of a decoded instruction is the stated slice of the word, unsigned and unscaled; an address operand is
absolute and is zero-extended where it is written to `pc` or `I`. (The two shifts have no operand `y`.) The clause of
`JumpPlusV0` also states its sum, as R144 has it with the spec's own decision D6 (log 7). -/
def Obligations.OperandsAreUnsignedFields : Prop :=
  ∀ (w : Word) (i : Instr), decodeWord w = .ok i →
    match i with
    | .clear | .ret => True
    | .jump addr =>
      addr = (w.extractLsb' 0 12).setWidth 16 ∧ ∀ s : State, exec i s = .next { s with pc := (w.extractLsb' 0 12).setWidth 16 }
    | .call addr =>
      addr = (w.extractLsb' 0 12).setWidth 16 ∧
        ∀ s : State, s.sp.val < 16 → ∃ t, exec i s = .next t ∧ t.pc = (w.extractLsb' 0 12).setWidth 16
    | .setIndex addr =>
      addr = (w.extractLsb' 0 12).setWidth 16 ∧ ∀ s : State, exec i s = .next { s with I := (w.extractLsb' 0 12).setWidth 16 }
    | .jumpPlusV0 addr =>
      addr = (w.extractLsb' 0 12).setWidth 16 ∧
        ∀ s : State, exec i s = .next { s with pc := (w.extractLsb' 0 12).setWidth 16 + (s.reg 0).setWidth 16 }
    | .skipIfEqualImmediate x kk | .skipIfNotEqualImmediate x kk | .loadImmediate x kk | .addImmediate x kk | .random x kk =>
      x.val = (w.extractLsb' 8 4).toNat ∧ kk = w.extractLsb' 0 8
    | .skipIfRegistersEqual x y | .skipIfRegistersNotEqual x y | .copy x y | .or x y | .and x y | .xor x y | .add x y
    | .subXY x y | .subYX x y =>
      x.val = (w.extractLsb' 8 4).toNat ∧ y.val = (w.extractLsb' 4 4).toNat
    | .drawSprite x y n =>
      x.val = (w.extractLsb' 8 4).toNat ∧ y.val = (w.extractLsb' 4 4).toNat ∧ n = (w.extractLsb' 0 4).toNat
    | .shiftRight x | .shiftLeft x | .skipIfKeyPressed x | .skipIfKeyNotPressed x | .loadDelayIntoRegister x | .waitForKey x
    | .setDelay x | .setSound x | .addToIndex x | .spriteAddress x | .storeBCD x | .saveRegisters x | .loadRegisters x =>
      x.val = (w.extractLsb' 8 4).toNat

/-! ## Step -/

/-- R62: the fetched word is the byte at pc followed by the byte at pc + 1; the first holds the operation nibble and `x`, the
second is `kk` and holds `y` and `n`. -/
def Obligations.FetchIsBigEndian : Prop :=
  ∀ s : State,
    s.fetchWord = s.readByte s.pc.toNat ++ s.readByte (s.pc.toNat + 1) ∧
    s.fetchWord.toNat / 4096 = (s.readByte s.pc.toNat).toNat / 16 ∧
    (fieldX s.fetchWord).val = (s.readByte s.pc.toNat).toNat % 16 ∧
    fieldKK s.fetchWord = s.readByte (s.pc.toNat + 1) ∧
    (fieldY s.fetchWord).val = (s.readByte (s.pc.toNat + 1)).toNat / 16 ∧
    fieldN s.fetchWord = (s.readByte (s.pc.toNat + 1)).toNat % 16

/-- R120, R122: when the bytes at pc decode to an instruction, `Step` is that instruction run with pc advanced by 2 (modulo
65536: D6, log 7), and the status is the instruction's. -/
def Obligations.StepRunsDecodedInstruction : Prop :=
  ∀ (s : State) (i : Instr) (rest : List Byte),
    decodeBytes (s.readByte s.pc.toNat :: s.readByte (s.pc.toNat + 1) :: rest) = .ok (i, rest) →
      step s = exec i { s with pc := s.pc + 2 } ∧ stepStatus s = instrStatus i { s with pc := s.pc + 2 }

/-- R100: a word that matches no row is "a no-op that still advances pc", reported with the word (the wrap of pc is D6, the
content of the report D21: log 7, log 20). -/
def Obligations.UnknownOpcodeOnlyAdvancesPc : Prop :=
  ∀ s : State, (∀ r ∈ opcodeRows, s.fetchWord &&& r.mask ≠ r.pattern) →
    step s = .next { s with pc := s.pc + 2 } ∧ stepStatus s = .error (.unknownOpcode s.fetchWord)

/-- R125: `Step` is total: every state has a next state. -/
def Obligations.StepAlwaysCompletes : Prop := ∀ s : State, ∃ t, step s = .next t

/-- R220, R223: each error status of a `Step` has exactly one cause, and `RomTooLarge` is none of them. -/
def Obligations.EachErrorHasItsExactCause : Prop :=
  ∀ s : State,
    (stepStatus s = .error .stackOverflow ↔ ∃ addr, decodeWord s.fetchWord = .ok (.call addr) ∧ s.sp.val = 16) ∧
    (stepStatus s = .error .stackUnderflow ↔ decodeWord s.fetchWord = .ok .ret ∧ s.sp.val = 0) ∧
    (∀ w, stepStatus s = .error (.unknownOpcode w) ↔
      w = s.fetchWord ∧ ∀ r ∈ opcodeRows, s.fetchWord &&& r.mask ≠ r.pattern) ∧
    stepStatus s ≠ .error .romTooLarge

/-- R129: a `Step` that reports an error changes pc alone, by 2. For the two stack errors this is the spec's own decision D12
(log 12). -/
def Obligations.FailedStepChangesOnlyPc : Prop :=
  ∀ (s : State) (e : Fault), stepStatus s = .error e → step s = .next { s with pc := s.pc + 2 }

/-- R25: how each operation leaves pc, `p` being pc before the `Step` (sums modulo 65536: D6, log 7). -/
def Obligations.PcAfterEachOperation : Prop :=
  ∀ (s t : State) (i : Instr), decodeWord s.fetchWord = .ok i → step s = .next t →
    t.pc = match i with
      | .jump addr => addr
      | .call addr => if s.sp.val = 16 then s.pc + 2 else addr
      | .ret => if s.sp.val = 0 then s.pc + 2 else (s.stack[s.sp.val - 1]?).getD 0
      | .jumpPlusV0 addr => BitVec.ofNat 16 (addr.toNat + (s.reg 0).toNat)
      | .skipIfEqualImmediate x kk => if s.reg x = kk then s.pc + 4 else s.pc + 2
      | .skipIfNotEqualImmediate x kk => if s.reg x ≠ kk then s.pc + 4 else s.pc + 2
      | .skipIfRegistersEqual x y => if s.reg x = s.reg y then s.pc + 4 else s.pc + 2
      | .skipIfRegistersNotEqual x y => if s.reg x ≠ s.reg y then s.pc + 4 else s.pc + 2
      | .skipIfKeyPressed x => if s.key[(s.reg x).toNat % 16]! = true then s.pc + 4 else s.pc + 2
      | .skipIfKeyNotPressed x => if s.key[(s.reg x).toNat % 16]! = false then s.pc + 4 else s.pc + 2
      | .waitForKey _ => if ∃ k : Fin 16, s.key[k] = true then s.pc + 2 else s.pc
      | _ => s.pc + 2

/-! ## What an operation leaves alone -/

/-- R20's and R22's tables: each item of the state is changed by an instruction only if the instruction is one of the item's
writers. For `pc`, which every `Step` advances (R122), the writers are the instructions that change the advanced pc (R25). -/
def Obligations.StateChangesOnlyByItsWriters : Prop :=
  ∀ (i : Instr) (s t : State), exec i s = .next t →
    (t.mem ≠ s.mem → ∃ x, i = .storeBCD x ∨ i = .saveRegisters x) ∧
    (t.I ≠ s.I → (∃ addr, i = .setIndex addr) ∨ ∃ x, i = .addToIndex x ∨ i = .spriteAddress x) ∧
    (t.stack ≠ s.stack → ∃ addr, i = .call addr) ∧
    (t.sp ≠ s.sp → i = .ret ∨ ∃ addr, i = .call addr) ∧
    (t.fb ≠ s.fb → i = .clear ∨ ∃ x y n, i = .drawSprite x y n) ∧
    (t.redraw ≠ s.redraw → i = .clear ∨ ∃ x y n, i = .drawSprite x y n) ∧
    (t.DT ≠ s.DT → ∃ x, i = .setDelay x) ∧
    (t.ST ≠ s.ST → ∃ x, i = .setSound x) ∧
    t.key = s.key ∧
    (t.draws ≠ s.draws → ∃ x kk, i = .random x kk) ∧
    (t.V ≠ s.V → match i with
      | .loadImmediate _ _ | .addImmediate _ _ | .copy _ _ | .or _ _ | .and _ _ | .xor _ _ | .add _ _ | .subXY _ _ | .subYX _ _
      | .shiftRight _ | .shiftLeft _ | .random _ _ | .drawSprite _ _ _ | .loadDelayIntoRegister _ | .waitForKey _
      | .loadRegisters _ => True
      | _ => False) ∧
    (t.pc ≠ s.pc → match i with
      | .jump _ | .call _ | .ret | .jumpPlusV0 _ | .skipIfEqualImmediate _ _ | .skipIfNotEqualImmediate _ _
      | .skipIfRegistersEqual _ _ | .skipIfRegistersNotEqual _ _ | .skipIfKeyPressed _ | .skipIfKeyNotPressed _
      | .waitForKey _ => True
      | _ => False)

/-- R22's table: a general register changes only if the instruction names it as written. -/
def Obligations.RegistersChangeOnlyWhereNamed : Prop :=
  ∀ (i : Instr) (s t : State), exec i s = .next t → ∀ r : Index, t.reg r ≠ s.reg r →
    match i with
    | .loadImmediate x _ => r = x
    | .addImmediate x _ => r = x
    | .copy x _ => r = x
    | .or x _ => r = x
    | .and x _ => r = x
    | .xor x _ => r = x
    | .add x _ => r = x ∨ r = VF
    | .subXY x _ => r = x ∨ r = VF
    | .subYX x _ => r = x ∨ r = VF
    | .shiftRight x => r = x ∨ r = VF
    | .shiftLeft x => r = x ∨ r = VF
    | .random x _ => r = x
    | .drawSprite _ _ _ => r = VF
    | .loadDelayIntoRegister x => r = x
    | .waitForKey x => r = x ∧ ∃ k : Fin 16, s.key[k] = true
    | .loadRegisters x => r ≤ x
    | _ => False

/-- R26: VF after each of the six flag-defining operations, from the values before it, and always 0 or 1. The form `x` = F is
covered: the flag is what VF holds. A sprite has at most 15 rows (R92). -/
def Obligations.FlagAfterEachDefiningOperation : Prop :=
  ∀ (s : State) (x y : Index) (n : Nat), n < 16 →
    (∃ t, exec (.add x y) s = .next t ∧ t.reg VF = if (s.reg x).toNat + (s.reg y).toNat > 255 then 1 else 0) ∧
    (∃ t, exec (.subXY x y) s = .next t ∧ t.reg VF = if (s.reg x).toNat > (s.reg y).toNat then 1 else 0) ∧
    (∃ t, exec (.subYX x y) s = .next t ∧ t.reg VF = if (s.reg y).toNat > (s.reg x).toNat then 1 else 0) ∧
    (∃ t, exec (.shiftRight x) s = .next t ∧ t.reg VF = if (s.reg x).getLsbD 0 then 1 else 0) ∧
    (∃ t, exec (.shiftLeft x) s = .next t ∧ t.reg VF = if (s.reg x).getLsbD 7 then 1 else 0) ∧
    ∃ t, exec (.drawSprite x y n) s = .next t ∧
      (t.reg VF = 0 ∨ t.reg VF = 1) ∧
      (t.reg VF = 1 ↔ ∃ p < 2048, pixel s.fb p = true ∧ pixel t.fb p = false)

/-- R37, R126: the keypad is constant during a `Step`, and only three operations read it: any other does the same whatever the
keys are. -/
def Obligations.OnlyKeyOperationsReadTheKeypad : Prop :=
  ∀ (i : Instr) (s t : State) (keys : Vector Bool 16), exec i s = .next t →
    t.key = s.key ∧
      ((∃ x, i = .skipIfKeyPressed x ∨ i = .skipIfKeyNotPressed x ∨ i = .waitForKey x) ∨
        exec i { s with key := keys } = .next { t with key := keys })

/-- R36: no instruction reads `ST`, only `SetSound` writes it, only `LoadDelayIntoRegister` reads `DT`, only `SetDelay` writes
it: an instruction run with other timers does the same and leaves those timers, but for these three. -/
def Obligations.TimersAreReadAndWrittenByTheirOwnOperations : Prop :=
  ∀ (i : Instr) (s t : State) (d v : Byte), exec i s = .next t →
    exec i { s with DT := d, ST := v } = .next
      (match i with
        | .setDelay _ => { t with ST := v }
        | .setSound _ => { t with DT := d }
        | .loadDelayIntoRegister x => { t with V := s.V.set x.val d x.isLt, DT := d, ST := v }
        | _ => { t with DT := d, ST := v })

/-- R35: `Clear` and `DrawSprite` set `redraw` always, no instruction clears it and none reads it; the host clears it. -/
def Obligations.RedrawIsSetByDrawingAndNeverRead : Prop :=
  ∀ (i : Instr) (s t : State) (b : Bool), exec i s = .next t →
    (s.redraw = true → t.redraw = true) ∧
    (i = .clear ∨ (∃ x y n, i = .drawSprite x y n) →
      t.redraw = true ∧ exec i { s with redraw := b } = .next t) ∧
    (¬ (i = .clear ∨ ∃ x y n, i = .drawSprite x y n) →
      t.redraw = s.redraw ∧ exec i { s with redraw := b } = .next { t with redraw := b }) ∧
    (clearRedraw t).redraw = false

/-- R30: "a slot above `sp` keeps its last value and is never observable" (the retention is D26, log 16): two states that
differ at most in stack slots at or above `sp` step to two states of which the same holds. -/
def Obligations.FreeStackSlotsAreUnobservable : Prop :=
  ∀ (s t : State) (slots : Vector Word 16), (∀ j : Fin 16, j.val < s.sp.val → slots[j] = s.stack[j]) → step s = .next t →
    ∃ slots' : Vector Word 16, step { s with stack := slots } = .next { t with stack := slots' } ∧
      ∀ j : Fin 16, j.val < t.sp.val → slots'[j] = t.stack[j]

/-! ## Control flow -/

/-- R140: `Clear` completes, blanks all 2048 pixels, sets `redraw` and changes nothing else. -/
def Obligations.ClearBlanksTheScreen : Prop :=
  ∀ s : State, ∃ t, exec .clear s = .next t ∧ (∀ p < 2048, pixel t.fb p = false) ∧ t.redraw = true ∧
    t = { s with fb := t.fb, redraw := t.redraw }

/-- R142, R144: the jumps complete, load pc and change nothing else; for an address of 12 bits the sum of `JumpPlusV0` is not
reduced (D6, log 7). -/
def Obligations.JumpsLoadPc : Prop :=
  ∀ (s : State) (addr : Word),
    exec (.jump addr) s = .next { s with pc := addr } ∧
    ∃ t, exec (.jumpPlusV0 addr) s = .next t ∧ t = { s with pc := t.pc } ∧
      (wfAddr addr = true → t.pc.toNat = addr.toNat + (s.reg 0).toNat)

/-- R143: `Call` below depth 16 completes: the advanced pc goes to `stack[sp]`, `sp` grows by one and pc is the target. At depth
16 it reports `StackOverflow` and changes nothing (D12, log 12). -/
def Obligations.CallPushesTheReturnAddress : Prop :=
  ∀ (s : State) (addr : Word),
    (∀ h : s.sp.val < 16,
      exec (.call addr) s =
        .next { s with stack := s.stack.set s.sp.val s.pc h, sp := ⟨s.sp.val + 1, Nat.succ_lt_succ h⟩, pc := addr } ∧
      instrStatus (.call addr) s = .ok) ∧
    (s.sp.val = 16 → exec (.call addr) s = .next s ∧ instrStatus (.call addr) s = .error .stackOverflow)

/-- R141: `Return` with a return address held completes: `sp` falls by one and pc is the slot at the new `sp`, which keeps its
value (D26, log 16). With none held it reports `StackUnderflow` and changes nothing (D12, log 12). -/
def Obligations.ReturnPopsTheReturnAddress : Prop :=
  ∀ s : State,
    (∀ j : Fin 16, s.sp.val = j.val + 1 →
      exec .ret s = .next { s with sp := ⟨j.val, Nat.lt_succ_of_lt j.isLt⟩, pc := s.stack[j] } ∧ instrStatus .ret s = .ok) ∧
    (s.sp.val = 0 → exec .ret s = .next s ∧ instrStatus .ret s = .error .stackUnderflow)

/-- `n` nested calls run one after another, each at the pc the one before it left, advanced by 2. -/
def Obligations.NestedCallsHoldEveryReturnAddress : Prop :=
  ∀ (targets : List Word) (s : State), s.sp.val + targets.length ≤ 16 →
    ∃ t : State,
      targets.foldl (fun o addr => o.bind fun u => nextState? (exec (.call addr) u.advancePc)) (some s) = some t ∧
      t.sp.val = s.sp.val + targets.length ∧
      (∀ j : Fin 16, j.val < s.sp.val → t.stack[j] = s.stack[j]) ∧
      (∀ (k : Nat) (hk : k < targets.length) (hj : s.sp.val + k < 16),
        t.stack[s.sp.val + k] = (if k = 0 then s.pc else (targets[k - 1]?).getD 0) + 2) ∧
      (t.sp.val = 16 → ∀ addr, instrStatus (.call addr) t.advancePc = .error .stackOverflow)

/-- R141, R143: a `Return` that follows a `Call` resumes at the instruction after the call, with the depth as before. -/
def Obligations.ReturnUndoesCall : Prop :=
  ∀ (s t : State) (addr : Word), s.sp.val < 16 → exec (.call addr) s = .next t →
    ∃ u, exec .ret t.advancePc = .next u ∧ u = { s with stack := t.stack }

/-! ## Skips -/

/-- R150 to R154, R203, R204: each of the six skips completes, adds 2 to pc (modulo 65536: D6, log 7) exactly when its condition
holds, and changes nothing else. The key is the one named by the low nibble (R207, D13, log 13). -/
def Obligations.SkipsAdvancePcByTwoMore : Prop :=
  ∀ (s : State) (x y : Index) (kk : Byte),
    exec (.skipIfEqualImmediate x kk) s = .next { s with pc := if s.V[x] = kk then s.pc + 2 else s.pc } ∧
    exec (.skipIfNotEqualImmediate x kk) s = .next { s with pc := if s.V[x] ≠ kk then s.pc + 2 else s.pc } ∧
    exec (.skipIfRegistersEqual x y) s = .next { s with pc := if s.V[x] = s.V[y] then s.pc + 2 else s.pc } ∧
    exec (.skipIfRegistersNotEqual x y) s = .next { s with pc := if s.V[x] ≠ s.V[y] then s.pc + 2 else s.pc } ∧
    ∀ k : Fin 16, k.val = (s.V[x]).toNat % 16 →
      exec (.skipIfKeyPressed x) s = .next { s with pc := if s.key[k] = true then s.pc + 2 else s.pc } ∧
      exec (.skipIfKeyNotPressed x) s = .next { s with pc := if s.key[k] = false then s.pc + 2 else s.pc }

/-! ## Registers -/

/-- R160 to R165: the loads and the bitwise operations complete, give `Vx` its new value (arithmetic modulo 256, no flag) and
change nothing else: with `x` = F, VF is simply the destination. -/
def Obligations.PlainRegisterResults : Prop :=
  ∀ (s : State) (x y : Index) (kk : Byte),
    exec (.loadImmediate x kk) s = .next { s with V := s.V.set x.val kk x.isLt } ∧
    exec (.addImmediate x kk) s =
      .next { s with V := s.V.set x.val (BitVec.ofNat 8 (((s.V[x]).toNat + kk.toNat) % 256)) x.isLt } ∧
    exec (.copy x y) s = .next { s with V := s.V.set x.val s.V[y] x.isLt } ∧
    (∃ t, exec (.or x y) s = .next t ∧ t = { s with V := s.V.set x.val t.V[x] x.isLt } ∧
      ∀ b < 8, (t.V[x]).getLsbD b = ((s.V[x]).getLsbD b || (s.V[y]).getLsbD b)) ∧
    (∃ t, exec (.and x y) s = .next t ∧ t = { s with V := s.V.set x.val t.V[x] x.isLt } ∧
      ∀ b < 8, (t.V[x]).getLsbD b = ((s.V[x]).getLsbD b && (s.V[y]).getLsbD b)) ∧
    (∃ t, exec (.xor x y) s = .next t ∧ t = { s with V := s.V.set x.val t.V[x] x.isLt } ∧
      ∀ b < 8, (t.V[x]).getLsbD b = ((s.V[x]).getLsbD b ^^ (s.V[y]).getLsbD b))

/-- R166 to R170: the five flag-defining ALU operations complete, write the result to `Vx` and then the flag to VF, both from the
values before, and change nothing else. With `x` = F the flag is kept and the result lost: the spec's own decisions D10 and
D11 (log 11). The `y` field of the shifts takes no part (D28, log 18). -/
def Obligations.FlagArithmeticResults : Prop :=
  ∀ (s : State) (x y : Index) (a b : Nat), a = (s.V[x]).toNat → b = (s.V[y]).toNat →
    exec (.add x y) s = .next { s with V :=
      (s.V.set x.val (BitVec.ofNat 8 ((a + b) % 256)) x.isLt).set 15 (if a + b > 255 then 1 else 0) } ∧
    exec (.subXY x y) s = .next { s with V :=
      (s.V.set x.val (BitVec.ofNat 8 ((256 + a - b) % 256)) x.isLt).set 15 (if a > b then 1 else 0) } ∧
    exec (.subYX x y) s = .next { s with V :=
      (s.V.set x.val (BitVec.ofNat 8 ((256 + b - a) % 256)) x.isLt).set 15 (if b > a then 1 else 0) } ∧
    exec (.shiftRight x) s = .next { s with V :=
      (s.V.set x.val (BitVec.ofNat 8 (a / 2)) x.isLt).set 15 (BitVec.ofNat 8 (a % 2)) } ∧
    exec (.shiftLeft x) s = .next { s with V :=
      (s.V.set x.val (BitVec.ofNat 8 (a * 2 % 256)) x.isLt).set 15 (BitVec.ofNat 8 (a / 128)) }

/-! ## Memory and the address register -/

/-- R180 to R182: the three operations on `I` complete and change nothing else. The 16-bit wrap and the absence of a flag are D7
(log 8), the multiplication of the whole byte is D27 (log 17). -/
def Obligations.IndexRegisterResults : Prop :=
  ∀ (s : State) (x : Index) (addr : Word),
    exec (.setIndex addr) s = .next { s with I := addr } ∧
    exec (.addToIndex x) s = .next { s with I := BitVec.ofNat 16 ((s.I.toNat + (s.V[x]).toNat) % 65536) } ∧
    exec (.spriteAddress x) s = .next { s with I := BitVec.ofNat 16 ((s.V[x]).toNat * 5) }

/-- R183: `StoreBCD` completes, stores hundreds, tens and ones at `I`, `I + 1`, `I + 2` (each modulo 4096: D5, log 6) and changes
no other byte and nothing else. -/
def Obligations.StoreBCDWritesThreeDigits : Prop :=
  ∀ (s : State) (x : Index), ∃ t, exec (.storeBCD x) s = .next t ∧
    t.readByte (s.dataAddr 0) = BitVec.ofNat 8 ((s.V[x]).toNat / 100) ∧
    t.readByte (s.dataAddr 1) = BitVec.ofNat 8 ((s.V[x]).toNat / 10 % 10) ∧
    t.readByte (s.dataAddr 2) = BitVec.ofNat 8 ((s.V[x]).toNat % 10) ∧
    (∀ a, physical a ≠ physical (s.dataAddr 0) → physical a ≠ physical (s.dataAddr 1) →
      physical a ≠ physical (s.dataAddr 2) → t.readByte a = s.readByte a) ∧
    t = { s with mem := t.mem }

/-- R183, R186: the digits that `StoreBCD` stores are those of the double-dabble algorithm (D25, log 27). -/
def Obligations.StoreBCDAgreesWithDoubleDabble : Prop :=
  ∀ (s : State) (x : Index),
    exec (.storeBCD x) s = .next { s with mem := s.mem.writeBytes s.I.toNat (doubleDabble s.V[x]) }

/-- R184: `SaveRegisters` completes, stores `V[0]` to `V[x]` at `I` onwards (each address modulo 4096: D5, log 6) and changes no
other byte and nothing else, `I` included. -/
def Obligations.SaveRegistersStoresUpToX : Prop :=
  ∀ (s : State) (x : Index), ∃ t, exec (.saveRegisters x) s = .next t ∧
    (∀ k : Fin 16, k ≤ x → t.readByte (s.dataAddr k.val) = s.V[k]) ∧
    (∀ a, (∀ k : Fin 16, k ≤ x → physical a ≠ physical (s.dataAddr k.val)) → t.readByte a = s.readByte a) ∧
    t = { s with mem := t.mem }

/-- R185: `LoadRegisters` completes, loads `V[0]` to `V[x]` from `I` onwards and changes no other register and nothing else,
`I` included. -/
def Obligations.LoadRegistersLoadsUpToX : Prop :=
  ∀ (s : State) (x : Index), ∃ t, exec (.loadRegisters x) s = .next t ∧
    (∀ r : Index, t.reg r = if r ≤ x then s.readByte (s.dataAddr r.val) else s.reg r) ∧
    t = { s with V := t.V }

/-- R185's round trip: `SaveRegisters(x)`, then `LoadRegisters(x)` into registers of any contents, gives `V[0]` to `V[x]` back. -/
def Obligations.SaveThenLoadGivesRegistersBack : Prop :=
  ∀ (s t u : State) (x : Index) (W : Vector Byte 16), exec (.saveRegisters x) s = .next t →
    exec (.loadRegisters x) { t with V := W, pc := t.pc + 2 } = .next u →
      (∀ r : Index, r ≤ x → u.reg r = s.reg r) ∧ (∀ r : Index, x < r → u.reg r = W[r])

/-- R74, for registers saved over both bytes at pc: they are the next instruction word. -/
def Obligations.SavedRegistersAreFetchedNext : Prop :=
  ∀ (s t : State) (x k : Fin 16) (hk : k.val + 1 < 16), k.val + 1 ≤ x.val → exec (.saveRegisters x) s = .next t →
    physical s.pc.toNat = physical (s.dataAddr k.val) → t.fetchWord = wordOfBytes s.V[k] s.V[k.val + 1]

/-- R74: what `StoreBCD` or `SaveRegisters` stores is seen by the very next fetch, wherever it fetches from and whether the store
covers both bytes of the word, one or none; the word so formed is what the next `Step` runs. The store itself is the one of
the word as fetched, even where it overwrites its own two bytes. (Addresses wrap at 4096: D5, log 6; pc at 65536: D6, log 7.) -/
def Obligations.StoredBytesAreSeenByTheNextFetch : Prop :=
  ∀ (s t : State) (i : Instr) (x : Index) (bytes : List Byte), decodeWord s.fetchWord = .ok i →
    (i = .storeBCD x ∧ bytes = [BitVec.ofNat 8 ((s.V[x]).toNat / 100), BitVec.ofNat 8 ((s.V[x]).toNat / 10 % 10),
        BitVec.ofNat 8 ((s.V[x]).toNat % 10)] ∨
      i = .saveRegisters x ∧ bytes = s.V.toList.take (x.val + 1)) →
    step s = .next t →
      t.pc = s.pc + 2 ∧
      ∀ p : Word,
        ({ t with pc := p } : State).fetchWord =
          wordOfBytes (byteAfterStore s bytes p.toNat) (byteAfterStore s bytes (p.toNat + 1)) ∧
        ∀ j : Instr, decodeWord (wordOfBytes (byteAfterStore s bytes p.toNat) (byteAfterStore s bytes (p.toNat + 1))) = .ok j →
          step { t with pc := p } = exec j { t with pc := p + 2 }

/-- R60: an address is reduced modulo 4096, so addresses that differ by a multiple of 4096 read the same byte, and an
instruction word may wrap from 0xFFF to 0x000 (D5, log 6). -/
def Obligations.AddressesWrapAt4096 : Prop :=
  ∀ (s : State) (a k : Nat), s.readByte (a + 4096 * k) = s.readByte a ∧
    (s.pc.toNat % 4096 = 4095 → s.fetchWord = wordOfBytes (s.readByte 0xFFF) (s.readByte 0x000))

/-! ## Display -/

/-- R190 to R193: `DrawSprite` completes, XORs the sprite into the screen pixel by pixel, wrapping at both edges (rows at 32: D8,
log 9; bit 7 leftmost: D9, log 10), sets VF to the collision and `redraw` to 1, and changes nothing else. The coordinates
are the values before VF is written (D10, log 11). -/
def Obligations.DrawSpriteXorsTheSpriteIn : Prop :=
  ∀ (s : State) (x y : Index) (n : Nat), n < 16 → ∃ t, exec (.drawSprite x y n) s = .next t ∧
    (∀ X < 64, ∀ Y < 32,
      pixel t.fb (X + 64 * Y) = (pixel s.fb (X + 64 * Y) ^^ spriteLights s x y n X Y)) ∧
    (t.reg VF = 0 ∨ t.reg VF = 1) ∧
    (t.reg VF = 1 ↔ ∃ X < 64, ∃ Y < 32, spriteLights s x y n X Y = true ∧ pixel s.fb (X + 64 * Y) = true) ∧
    t = { s with fb := t.fb, V := s.V.set 15 (t.reg VF), redraw := true }

/-- R190 (g): drawing the same sprite twice at the same place restores the screen; and where the first drawing met no collision,
the second reports one exactly if the sprite has a 1 bit (log 28). A coordinate held in VF is overwritten by the first
drawing, so that is another place. -/
def Obligations.DrawingTwiceRestoresTheScreen : Prop :=
  ∀ (s t u : State) (x y : Index) (n : Nat), n < 16 → x ≠ VF → y ≠ VF → exec (.drawSprite x y n) s = .next t →
    exec (.drawSprite x y n) t.advancePc = .next u →
      u.fb = s.fb ∧ (t.reg VF = 0 → (u.reg VF = 1 ↔ ∃ r < n, s.readByte (s.dataAddr r) ≠ 0))

/-! ## Timers, keypad and random -/

/-- R200 to R202: the three timer moves complete and change nothing else. -/
def Obligations.TimerMoveResults : Prop :=
  ∀ (s : State) (x : Index),
    exec (.loadDelayIntoRegister x) s = .next { s with V := s.V.set x.val s.DT x.isLt } ∧
    exec (.setDelay x) s = .next { s with DT := s.V[x] } ∧
    exec (.setSound x) s = .next { s with ST := s.V[x] }

/-- R205, R208: with a key pressed, `WaitForKey` completes: `Vx` takes the least pressed index (the order is D14, log 14) and
nothing else changes; with none pressed it waits: the advance of pc is undone (D15). No error either way. -/
def Obligations.WaitForKeyTakesTheLeastPressedKey : Prop :=
  ∀ (s : State) (x : Index),
    (∀ k : Fin 16, s.key[k] = true → (∀ j : Fin 16, j < k → s.key[j] = false) →
      exec (.waitForKey x) s = .next { s with V := s.V.set x.val (BitVec.ofNat 8 k.val) x.isLt }) ∧
    ((∀ k : Fin 16, s.key[k] = false) → exec (.waitForKey x) s = .next { s with pc := s.pc - 2 }) ∧
    instrStatus (.waitForKey x) s = .ok

/-- R205 (a): "the stalled `Step` changes no state at all", and its status is `Ok`. -/
def Obligations.WaitForKeyStallChangesNothing : Prop :=
  ∀ (s : State) (x : Index), decodeWord s.fetchWord = .ok (.waitForKey x) → (∀ k : Fin 16, s.key[k] = false) →
    step s = .next s ∧ stepStatus s = .ok

/-- R210: `Random` completes and writes the next draw of RND masked with `kk` (the operation is D1, its draw a free value:
log 1); a bit that is 0 in `kk` is 0 in the result, whatever the draw. -/
def Obligations.RandomMasksTheDraw : Prop :=
  ∀ (s : State) (x : Index) (kk : Byte), ∃ t, exec (.random x kk) s = .next t ∧
    t = { s with V := s.V.set x.val (Config.rnd s.draws &&& kk) x.isLt, draws := s.draws + 1 } ∧
    ∀ b < 8, kk.getLsbD b = false → (t.reg x).getLsbD b = false

/-! ## The host's operations -/

/-- R230: `TickTimers` lowers each timer by one, saturating at zero and independently of the other, and changes nothing else. -/
def Obligations.TickLowersEachTimerByOne : Prop :=
  ∀ s : State, (tickTimers s).DT.toNat = s.DT.toNat - 1 ∧ (tickTimers s).ST.toNat = s.ST.toNat - 1 ∧
    tickTimers s = { s with DT := (tickTimers s).DT, ST := (tickTimers s).ST }

/-- R230, R232: after any number of ticks each timer has gone down by that number, or stands at zero. -/
def Obligations.TimersAfterManyTicks : Prop :=
  ∀ (font : Vector Byte 80) (n : Nat) (s : State), ∃ t, hostRun font (List.replicate n .tickTimers) s = .next t ∧
    t.DT.toNat = s.DT.toNat - n ∧ t.ST.toNat = s.ST.toNat - n ∧ t = { s with DT := t.DT, ST := t.ST }

/-- R262: a ROM of at most 3584 bytes is copied verbatim to 0x200 onwards and nothing else is touched; a longer one is refused
with no partial write. -/
def Obligations.LoadRomCopiesOrRefusesWhole : Prop :=
  ∀ (s : State) (bytes : List Byte),
    (bytes.length ≤ 3584 → ∃ t, loadRom bytes s = (t, .ok) ∧
      (∀ (k : Nat) (h : k < bytes.length), t.readByte (0x200 + k) = bytes[k]) ∧
      (∀ a < 4096, a < 0x200 ∨ 0x200 + bytes.length ≤ a → t.readByte a = s.readByte a) ∧
      t = { s with mem := t.mem }) ∧
    (3584 < bytes.length → loadRom bytes s = (s, .error .romTooLarge))

/-- R264, R265: after the start-up of R264 the first word fetched is made of ROM bytes 0 and 1, and pc, the stack and the
registers are as `Initialize` left them. -/
def Obligations.BootFetchesTheFirstRomWord : Prop :=
  ∀ (font : Vector Byte 80) (rom : List Byte) (s : State) (h : 2 ≤ rom.length), Booted font rom s →
    s.pc = 0x0200 ∧ s.fetchWord = wordOfBytes rom[0] rom[1] ∧ s.sp = 0 ∧ s.I = 0 ∧ ∀ x, s.reg x = 0

/-- R241: the redraw clear does `redraw <- 0` and nothing else; the core sets the flag, and apart from `Initialize` no other
operation clears it, so that it stays 1 until the host clears it. -/
def Obligations.RedrawStaysUntilTheHostClearsIt : Prop :=
  ∀ s : State, clearRedraw s = { s with redraw := false } ∧
    (∀ t, exec .clear s = .next t → t.redraw = true) ∧
    (∀ x y n t, exec (.drawSprite x y n) s = .next t → t.redraw = true) ∧
    ∀ (font : Vector Byte 80) (op : HostOp) (t : State), op ≠ .initializeCore → op ≠ .clearRedraw →
      hostOp font op s = .next t → s.redraw = true → t.redraw = true

/-- R240: the export is the 2048 pixels in index order and the redraw flag; reading changes nothing, no memory address aliases
the framebuffer, and a program changes it only with `Clear` and `DrawSprite`. -/
def Obligations.ExportShowsThePixelsInIndexOrder : Prop :=
  ∀ s : State, (exportFrame s).1.length = 2048 ∧ (exportFrame s).2 = s.redraw ∧
    (∀ x < 64, ∀ y < 32, (exportFrame s).1[x + 64 * y]? = some (pixel s.fb (x + 64 * y))) ∧
    (∀ (m : Memory), exportFrame { s with mem := m } = exportFrame s) ∧
    ∀ (i : Instr) (t : State), exec i s = .next t → i ≠ .clear → (∀ x y n, i ≠ .drawSprite x y n) →
      exportFrame t = exportFrame s

/-- R71: `TickTimers` touches only `DT` and `ST`, a keypad update only `key`, the redraw clear only `redraw`; and each of
a sequence of host operations sees the state left by the one before it. -/
def Obligations.HostOperationsTouchOnlyTheirOwnState : Prop :=
  ∀ (font : Vector Byte 80) (s : State) (keys : Vector Bool 16),
    (∃ d v, hostOp font .tickTimers s = .next { s with DT := d, ST := v }) ∧
    hostOp font (.setKeys keys) s = .next { s with key := keys } ∧
    hostOp font .clearRedraw s = .next { s with redraw := false } ∧
    ∀ (op : HostOp) (ops : List HostOp) (t : State), hostOp font op s = .next t →
      hostRun font (op :: ops) s = hostRun font ops t

/-! ## Runs -/

/-- R142, R247: where the word at pc is a `Jump` to pc itself, a `Step` returns `Ok` and changes nothing. -/
def Obligations.JumpToItselfIsAFixedPoint : Prop :=
  ∀ s : State, endOfRun s = true → step s = .next s ∧ stepStatus s = .ok

/-- R225: the strict reading goes on exactly where the core goes on without an error, to the same state. -/
def Obligations.StrictStepStopsExactlyAtErrors : Prop :=
  ∀ s t : State, strictStep s = .next t ↔ step s = .next t ∧ stepStatus s = .ok

/-- A word of the opcode table placed where the machine fetches is the instruction that the next `Step` runs (log 22, log 26). -/
def Obligations.PlacedWordIsTheNextInstruction : Prop :=
  ∀ (s : State) (w : Nat) (i : Instr), decodeTableWord 16 w = some i →
    step (s.withFetchWord 16 w) = exec i { s.withFetchWord 16 w with pc := s.pc + 2 }
end

