-- ==== Sys2Proof/Laws/Decode.lean ====
section
/-! SUPPORT. The four masks of the opcode table as arithmetic, the fields of an encoded word, the byte order, and what the
decoder answers for a word that a row selects. -/

namespace Sys2Proof

/-! ## Masks -/

/-- Masking a number nibble by nibble. -/
theorem land_nibble (a b c d : Nat) (hb : b < 16) (hd : d < 16) :
    (16 * a + b) &&& (16 * c + d) = 16 * (a &&& c) + (b &&& d) := by
  have hbd : b &&& d < 2 ^ 4 := Nat.and_lt_two_pow b hd
  refine Nat.eq_of_testBit_eq fun i => ?_
  rw [Nat.testBit_and, show 16 = 2 ^ 4 from rfl, Nat.testBit_two_pow_mul_add _ hb, Nat.testBit_two_pow_mul_add _ hd,
    Nat.testBit_two_pow_mul_add _ hbd]
  split_ifs <;> rw [Nat.testBit_and]

theorem land_15 (a : Nat) : a &&& 15 = a % 16 := Nat.and_two_pow_sub_one_eq_mod a 4

/-- The nibbles of a word and of a mask. -/
theorem and_eq_nibbles (w : Word) (a b c d : Nat) (ha : a < 16) (hb : b < 16) (hc : c < 16) (hd : d < 16) :
    (w &&& BitVec.ofNat 16 (((a * 16 + b) * 16 + c) * 16 + d)).toNat =
      (((w.toNat / 4096 &&& a) * 16 + (w.toNat / 256 % 16 &&& b)) * 16 + (w.toNat / 16 % 16 &&& c)) * 16 +
        (w.toNat % 16 &&& d) := by
  have hw := w.isLt
  rw [BitVec.toNat_and, BitVec.toNat_ofNat, Nat.mod_eq_of_lt (by omega)]
  conv_lhs => rw [show w.toNat = 16 * (16 * (16 * (w.toNat / 4096) + w.toNat / 256 % 16) + w.toNat / 16 % 16) + w.toNat % 16 by omega,
    show ((a * 16 + b) * 16 + c) * 16 + d = 16 * (16 * (16 * a + b) + c) + d by ring]
  rw [land_nibble _ _ _ _ (by omega) hd, land_nibble _ _ _ _ (by omega) hc, land_nibble _ _ _ _ (by omega) hb]
  ring

theorem toNat_and_FFFF (w : Word) : (w &&& 0xFFFF).toNat = w.toNat := by
  have h := and_eq_nibbles w 15 15 15 15 (by decide) (by decide) (by decide) (by decide)
  simp only [land_15, Nat.reduceMul, Nat.reduceAdd] at h
  refine h.trans ?_
  have hw := w.isLt
  omega

theorem toNat_and_F0FF (w : Word) : (w &&& 0xF0FF).toNat = w.toNat / 4096 * 4096 + w.toNat % 256 := by
  have h := and_eq_nibbles w 15 0 15 15 (by decide) (by decide) (by decide) (by decide)
  simp only [land_15, Nat.and_zero, Nat.reduceMul, Nat.reduceAdd] at h
  refine h.trans ?_
  have hw := w.isLt
  omega

theorem toNat_and_F00F (w : Word) : (w &&& 0xF00F).toNat = w.toNat / 4096 * 4096 + w.toNat % 16 := by
  have h := and_eq_nibbles w 15 0 0 15 (by decide) (by decide) (by decide) (by decide)
  simp only [land_15, Nat.and_zero, Nat.reduceMul, Nat.reduceAdd] at h
  refine h.trans ?_
  have hw := w.isLt
  omega

theorem toNat_and_F000 (w : Word) : (w &&& 0xF000).toNat = w.toNat / 4096 * 4096 := by
  have h := and_eq_nibbles w 15 0 0 0 (by decide) (by decide) (by decide) (by decide)
  simp only [land_15, Nat.and_zero, Nat.reduceMul, Nat.reduceAdd] at h
  refine h.trans ?_
  have hw := w.isLt
  omega

/-! ## Fields and bytes -/

@[simp] theorem val_fieldX (w : Word) : (fieldX w).val = w.toNat / 256 % 16 := rfl
@[simp] theorem val_fieldY (w : Word) : (fieldY w).val = w.toNat / 16 % 16 := rfl
@[simp] theorem toNat_fieldKK (w : Word) : (fieldKK w).toNat = w.toNat % 256 := by simp [fieldKK]
@[simp] theorem toNat_fieldAddr (w : Word) : (fieldAddr w).toNat = w.toNat % 4096 := by
  simp only [fieldAddr, BitVec.toNat_ofNat]; omega

theorem toNat_wordAddr {op : Nat} (h : op < 16) (addr : Word) :
    (wordAddr op addr).toNat = op * 4096 + addr.toNat % 4096 := by
  simp only [wordAddr, BitVec.toNat_ofNat]; omega

theorem toNat_wordXKK {op : Nat} (h : op < 16) (x : Index) (kk : Byte) :
    (wordXKK op x kk).toNat = op * 4096 + x.val * 256 + kk.toNat := by
  have := x.isLt; have := kk.isLt
  simp only [wordXKK, BitVec.toNat_ofNat]; omega

theorem toNat_wordXYN {op : Nat} (h : op < 16) (x y : Index) (n : Nat) :
    (wordXYN op x y n).toNat = op * 4096 + x.val * 256 + y.val * 16 + n % 16 := by
  have := x.isLt; have := y.isLt
  simp only [wordXYN, BitVec.toNat_ofNat]; omega

theorem toNat_wordX {op : Nat} (h : op < 16) (x : Index) (sub : Nat) :
    (wordX op x sub).toNat = op * 4096 + x.val * 256 + sub % 256 := by
  have := x.isLt
  simp only [wordX, BitVec.toNat_ofNat]; omega

theorem fieldAddr_wordAddr {op : Nat} (h : op < 16) {addr : Word} (ha : wfAddr addr = true) :
    fieldAddr (wordAddr op addr) = addr := by
  have ha : addr.toNat < 4096 := by simpa [wfAddr] using ha
  apply BitVec.eq_of_toNat_eq
  rw [toNat_fieldAddr, toNat_wordAddr h]; omega

theorem fieldX_wordXKK {op : Nat} (h : op < 16) (x : Index) (kk : Byte) : fieldX (wordXKK op x kk) = x := by
  have := x.isLt; have := kk.isLt
  apply Fin.ext
  rw [val_fieldX, toNat_wordXKK h]; omega

theorem fieldKK_wordXKK {op : Nat} (h : op < 16) (x : Index) (kk : Byte) : fieldKK (wordXKK op x kk) = kk := by
  have := x.isLt; have := kk.isLt
  apply BitVec.eq_of_toNat_eq
  rw [toNat_fieldKK, toNat_wordXKK h]; omega

theorem fieldX_wordXYN {op : Nat} (h : op < 16) (x y : Index) (n : Nat) : fieldX (wordXYN op x y n) = x := by
  have := x.isLt; have := y.isLt
  apply Fin.ext
  rw [val_fieldX, toNat_wordXYN h]; omega

theorem fieldY_wordXYN {op : Nat} (h : op < 16) (x y : Index) (n : Nat) : fieldY (wordXYN op x y n) = y := by
  have := x.isLt; have := y.isLt
  apply Fin.ext
  rw [val_fieldY, toNat_wordXYN h]; omega

theorem fieldN_wordXYN {op : Nat} (h : op < 16) (x y : Index) {n : Nat} (hn : wfRows n = true) :
    fieldN (wordXYN op x y n) = n := by
  have hn : n < 16 := by simpa [wfRows] using hn
  rw [fieldN, toNat_wordXYN h]; omega

theorem fieldX_wordX {op : Nat} (h : op < 16) (x : Index) (sub : Nat) : fieldX (wordX op x sub) = x := by
  have := x.isLt
  apply Fin.ext
  rw [val_fieldX, toNat_wordX h]; omega

/-! The other direction: a word is put together again from its operation nibble and its fields. -/

theorem wordAddr_fieldAddr {w : Word} {op : Nat} (h : w.toNat / 4096 = op) : wordAddr op (fieldAddr w) = w := by
  have := w.isLt
  apply BitVec.eq_of_toNat_eq
  rw [toNat_wordAddr (by omega), toNat_fieldAddr]; omega

theorem wordXKK_fields {w : Word} {op : Nat} (h : w.toNat / 4096 = op) : wordXKK op (fieldX w) (fieldKK w) = w := by
  have := w.isLt
  apply BitVec.eq_of_toNat_eq
  rw [toNat_wordXKK (by omega), toNat_fieldKK, val_fieldX]; omega

theorem wordXYN_fields {w : Word} {op n : Nat} (h : w.toNat / 4096 = op) (hn : w.toNat % 16 = n) :
    wordXYN op (fieldX w) (fieldY w) n = w := by
  have := w.isLt
  apply BitVec.eq_of_toNat_eq
  rw [toNat_wordXYN (by omega), val_fieldX, val_fieldY]; omega

theorem wordX_fieldX {w : Word} {op sub : Nat} (h : w.toNat / 4096 = op) (hs : w.toNat % 256 = sub) :
    wordX op (fieldX w) sub = w := by
  have := w.isLt
  apply BitVec.eq_of_toNat_eq
  rw [toNat_wordX (by omega), val_fieldX]; omega

/-- A word is put together again from its two bytes. -/
@[simp] theorem wordOfBytes_hi_lo (w : Word) : wordOfBytes (hiByte w) (loByte w) = w := by
  have := w.isLt
  apply BitVec.eq_of_toNat_eq
  simp only [wordOfBytes, hiByte, loByte, BitVec.toNat_ofNat]; omega

theorem hiByte_wordOfBytes (hi lo : Byte) : hiByte (wordOfBytes hi lo) = hi := by
  have := hi.isLt; have := lo.isLt
  apply BitVec.eq_of_toNat_eq
  simp only [wordOfBytes, hiByte, BitVec.toNat_ofNat]; omega

theorem loByte_wordOfBytes (hi lo : Byte) : loByte (wordOfBytes hi lo) = lo := by
  have := hi.isLt; have := lo.isLt
  apply BitVec.eq_of_toNat_eq
  simp only [wordOfBytes, loByte, BitVec.toNat_ofNat]; omega

/-! ## Rows -/

theorem OpcodeRow.selects_iff (r : OpcodeRow) (w : Word) :
    r.selects w = true ↔ (w &&& r.mask).toNat = r.pattern.toNat := by
  simp [OpcodeRow.selects, BitVec.toNat_eq]

/-- The decoder answers with a row of the table, and that row selects the word. -/
theorem decodeWord_ok {w : Word} {i : Instr} (h : decodeWord w = .ok i) :
    ∃ r ∈ opcodeRows, r.selects w = true ∧ i = r.form w := by
  unfold decodeWord at h
  split at h
  · next r hr => cases h; exact ⟨r, List.mem_of_find?_eq_some hr, by simpa using List.find?_some hr, rfl⟩
  · cases h

/-- A rejection is by name, and no row selects the word. -/
theorem decodeWord_error {w : Word} {e : DecodeError} (h : decodeWord w = .error e) :
    e = .unknownOpcode w ∧ ∀ r ∈ opcodeRows, r.selects w = false := by
  unfold decodeWord at h
  split at h
  · cases h
  · next hr => cases h; exact ⟨rfl, fun r hm => by simpa using List.find?_eq_none.mp hr r hm⟩

end Sys2Proof
end

