-- ==== Sys2Proof/Laws/State.lean ====
section
/-! SUPPORT. What each field of the state is after each named update: one lemma a field, so that no later proof unfolds a
record update. -/

namespace Sys2Proof.Machine

section SetReg

variable (s : State) (x : Index) (v : Byte)

@[simp] theorem State.setReg_mem : (s.setReg x v).mem = s.mem := rfl
@[simp] theorem State.setReg_V : (s.setReg x v).V = s.V.set x.val v x.isLt := rfl
@[simp] theorem State.setReg_I : (s.setReg x v).I = s.I := rfl
@[simp] theorem State.setReg_pc : (s.setReg x v).pc = s.pc := rfl
@[simp] theorem State.setReg_stack : (s.setReg x v).stack = s.stack := rfl
@[simp] theorem State.setReg_sp : (s.setReg x v).sp = s.sp := rfl
@[simp] theorem State.setReg_fb : (s.setReg x v).fb = s.fb := rfl
@[simp] theorem State.setReg_redraw : (s.setReg x v).redraw = s.redraw := rfl
@[simp] theorem State.setReg_DT : (s.setReg x v).DT = s.DT := rfl
@[simp] theorem State.setReg_ST : (s.setReg x v).ST = s.ST := rfl
@[simp] theorem State.setReg_key : (s.setReg x v).key = s.key := rfl
@[simp] theorem State.setReg_draws : (s.setReg x v).draws = s.draws := rfl

end SetReg

section SetV

variable (s : State) (W : Vector Byte 16)

@[simp] theorem State.setV_mem : (s.setV W).mem = s.mem := rfl
@[simp] theorem State.setV_V : (s.setV W).V = W := rfl
@[simp] theorem State.setV_I : (s.setV W).I = s.I := rfl
@[simp] theorem State.setV_pc : (s.setV W).pc = s.pc := rfl
@[simp] theorem State.setV_stack : (s.setV W).stack = s.stack := rfl
@[simp] theorem State.setV_sp : (s.setV W).sp = s.sp := rfl
@[simp] theorem State.setV_fb : (s.setV W).fb = s.fb := rfl
@[simp] theorem State.setV_redraw : (s.setV W).redraw = s.redraw := rfl
@[simp] theorem State.setV_DT : (s.setV W).DT = s.DT := rfl
@[simp] theorem State.setV_ST : (s.setV W).ST = s.ST := rfl
@[simp] theorem State.setV_key : (s.setV W).key = s.key := rfl
@[simp] theorem State.setV_draws : (s.setV W).draws = s.draws := rfl

end SetV

section SetI

variable (s : State) (a : Word)

@[simp] theorem State.setI_mem : (s.setI a).mem = s.mem := rfl
@[simp] theorem State.setI_V : (s.setI a).V = s.V := rfl
@[simp] theorem State.setI_I : (s.setI a).I = a := rfl
@[simp] theorem State.setI_pc : (s.setI a).pc = s.pc := rfl
@[simp] theorem State.setI_stack : (s.setI a).stack = s.stack := rfl
@[simp] theorem State.setI_sp : (s.setI a).sp = s.sp := rfl
@[simp] theorem State.setI_fb : (s.setI a).fb = s.fb := rfl
@[simp] theorem State.setI_redraw : (s.setI a).redraw = s.redraw := rfl
@[simp] theorem State.setI_DT : (s.setI a).DT = s.DT := rfl
@[simp] theorem State.setI_ST : (s.setI a).ST = s.ST := rfl
@[simp] theorem State.setI_key : (s.setI a).key = s.key := rfl
@[simp] theorem State.setI_draws : (s.setI a).draws = s.draws := rfl

end SetI

section SetPc

variable (s : State) (a : Word)

@[simp] theorem State.setPc_mem : (s.setPc a).mem = s.mem := rfl
@[simp] theorem State.setPc_V : (s.setPc a).V = s.V := rfl
@[simp] theorem State.setPc_I : (s.setPc a).I = s.I := rfl
@[simp] theorem State.setPc_pc : (s.setPc a).pc = a := rfl
@[simp] theorem State.setPc_stack : (s.setPc a).stack = s.stack := rfl
@[simp] theorem State.setPc_sp : (s.setPc a).sp = s.sp := rfl
@[simp] theorem State.setPc_fb : (s.setPc a).fb = s.fb := rfl
@[simp] theorem State.setPc_redraw : (s.setPc a).redraw = s.redraw := rfl
@[simp] theorem State.setPc_DT : (s.setPc a).DT = s.DT := rfl
@[simp] theorem State.setPc_ST : (s.setPc a).ST = s.ST := rfl
@[simp] theorem State.setPc_key : (s.setPc a).key = s.key := rfl
@[simp] theorem State.setPc_draws : (s.setPc a).draws = s.draws := rfl

end SetPc

section SetDT

variable (s : State) (v : Byte)

@[simp] theorem State.setDT_mem : (s.setDT v).mem = s.mem := rfl
@[simp] theorem State.setDT_V : (s.setDT v).V = s.V := rfl
@[simp] theorem State.setDT_I : (s.setDT v).I = s.I := rfl
@[simp] theorem State.setDT_pc : (s.setDT v).pc = s.pc := rfl
@[simp] theorem State.setDT_stack : (s.setDT v).stack = s.stack := rfl
@[simp] theorem State.setDT_sp : (s.setDT v).sp = s.sp := rfl
@[simp] theorem State.setDT_fb : (s.setDT v).fb = s.fb := rfl
@[simp] theorem State.setDT_redraw : (s.setDT v).redraw = s.redraw := rfl
@[simp] theorem State.setDT_DT : (s.setDT v).DT = v := rfl
@[simp] theorem State.setDT_ST : (s.setDT v).ST = s.ST := rfl
@[simp] theorem State.setDT_key : (s.setDT v).key = s.key := rfl
@[simp] theorem State.setDT_draws : (s.setDT v).draws = s.draws := rfl

end SetDT

section SetST

variable (s : State) (v : Byte)

@[simp] theorem State.setST_mem : (s.setST v).mem = s.mem := rfl
@[simp] theorem State.setST_V : (s.setST v).V = s.V := rfl
@[simp] theorem State.setST_I : (s.setST v).I = s.I := rfl
@[simp] theorem State.setST_pc : (s.setST v).pc = s.pc := rfl
@[simp] theorem State.setST_stack : (s.setST v).stack = s.stack := rfl
@[simp] theorem State.setST_sp : (s.setST v).sp = s.sp := rfl
@[simp] theorem State.setST_fb : (s.setST v).fb = s.fb := rfl
@[simp] theorem State.setST_redraw : (s.setST v).redraw = s.redraw := rfl
@[simp] theorem State.setST_DT : (s.setST v).DT = s.DT := rfl
@[simp] theorem State.setST_ST : (s.setST v).ST = v := rfl
@[simp] theorem State.setST_key : (s.setST v).key = s.key := rfl
@[simp] theorem State.setST_draws : (s.setST v).draws = s.draws := rfl

end SetST

section SetKeys

variable (s : State) (keys : Vector Bool 16)

@[simp] theorem State.setKeys_mem : (s.setKeys keys).mem = s.mem := rfl
@[simp] theorem State.setKeys_V : (s.setKeys keys).V = s.V := rfl
@[simp] theorem State.setKeys_I : (s.setKeys keys).I = s.I := rfl
@[simp] theorem State.setKeys_pc : (s.setKeys keys).pc = s.pc := rfl
@[simp] theorem State.setKeys_stack : (s.setKeys keys).stack = s.stack := rfl
@[simp] theorem State.setKeys_sp : (s.setKeys keys).sp = s.sp := rfl
@[simp] theorem State.setKeys_fb : (s.setKeys keys).fb = s.fb := rfl
@[simp] theorem State.setKeys_redraw : (s.setKeys keys).redraw = s.redraw := rfl
@[simp] theorem State.setKeys_DT : (s.setKeys keys).DT = s.DT := rfl
@[simp] theorem State.setKeys_ST : (s.setKeys keys).ST = s.ST := rfl
@[simp] theorem State.setKeys_key : (s.setKeys keys).key = keys := rfl
@[simp] theorem State.setKeys_draws : (s.setKeys keys).draws = s.draws := rfl

end SetKeys

section SetRedraw

variable (s : State) (b : Bool)

@[simp] theorem State.setRedraw_mem : (s.setRedraw b).mem = s.mem := rfl
@[simp] theorem State.setRedraw_V : (s.setRedraw b).V = s.V := rfl
@[simp] theorem State.setRedraw_I : (s.setRedraw b).I = s.I := rfl
@[simp] theorem State.setRedraw_pc : (s.setRedraw b).pc = s.pc := rfl
@[simp] theorem State.setRedraw_stack : (s.setRedraw b).stack = s.stack := rfl
@[simp] theorem State.setRedraw_sp : (s.setRedraw b).sp = s.sp := rfl
@[simp] theorem State.setRedraw_fb : (s.setRedraw b).fb = s.fb := rfl
@[simp] theorem State.setRedraw_redraw : (s.setRedraw b).redraw = b := rfl
@[simp] theorem State.setRedraw_DT : (s.setRedraw b).DT = s.DT := rfl
@[simp] theorem State.setRedraw_ST : (s.setRedraw b).ST = s.ST := rfl
@[simp] theorem State.setRedraw_key : (s.setRedraw b).key = s.key := rfl
@[simp] theorem State.setRedraw_draws : (s.setRedraw b).draws = s.draws := rfl

end SetRedraw

section Paint

variable (s : State) (frame : Frame)

@[simp] theorem State.paint_mem : (s.paint frame).mem = s.mem := rfl
@[simp] theorem State.paint_V : (s.paint frame).V = s.V := rfl
@[simp] theorem State.paint_I : (s.paint frame).I = s.I := rfl
@[simp] theorem State.paint_pc : (s.paint frame).pc = s.pc := rfl
@[simp] theorem State.paint_stack : (s.paint frame).stack = s.stack := rfl
@[simp] theorem State.paint_sp : (s.paint frame).sp = s.sp := rfl
@[simp] theorem State.paint_fb : (s.paint frame).fb = frame := rfl
@[simp] theorem State.paint_redraw : (s.paint frame).redraw = true := rfl
@[simp] theorem State.paint_DT : (s.paint frame).DT = s.DT := rfl
@[simp] theorem State.paint_ST : (s.paint frame).ST = s.ST := rfl
@[simp] theorem State.paint_key : (s.paint frame).key = s.key := rfl
@[simp] theorem State.paint_draws : (s.paint frame).draws = s.draws := rfl

end Paint

section Drawn

variable (s : State)

@[simp] theorem State.drawn_mem : (s.drawn).mem = s.mem := rfl
@[simp] theorem State.drawn_V : (s.drawn).V = s.V := rfl
@[simp] theorem State.drawn_I : (s.drawn).I = s.I := rfl
@[simp] theorem State.drawn_pc : (s.drawn).pc = s.pc := rfl
@[simp] theorem State.drawn_stack : (s.drawn).stack = s.stack := rfl
@[simp] theorem State.drawn_sp : (s.drawn).sp = s.sp := rfl
@[simp] theorem State.drawn_fb : (s.drawn).fb = s.fb := rfl
@[simp] theorem State.drawn_redraw : (s.drawn).redraw = s.redraw := rfl
@[simp] theorem State.drawn_DT : (s.drawn).DT = s.DT := rfl
@[simp] theorem State.drawn_ST : (s.drawn).ST = s.ST := rfl
@[simp] theorem State.drawn_key : (s.drawn).key = s.key := rfl
@[simp] theorem State.drawn_draws : (s.drawn).draws = s.draws + 1 := rfl

end Drawn

section SetMem

variable (s : State) (m : Memory)

@[simp] theorem State.setMem_mem : (s.setMem m).mem = m := rfl
@[simp] theorem State.setMem_V : (s.setMem m).V = s.V := rfl
@[simp] theorem State.setMem_I : (s.setMem m).I = s.I := rfl
@[simp] theorem State.setMem_pc : (s.setMem m).pc = s.pc := rfl
@[simp] theorem State.setMem_stack : (s.setMem m).stack = s.stack := rfl
@[simp] theorem State.setMem_sp : (s.setMem m).sp = s.sp := rfl
@[simp] theorem State.setMem_fb : (s.setMem m).fb = s.fb := rfl
@[simp] theorem State.setMem_redraw : (s.setMem m).redraw = s.redraw := rfl
@[simp] theorem State.setMem_DT : (s.setMem m).DT = s.DT := rfl
@[simp] theorem State.setMem_ST : (s.setMem m).ST = s.ST := rfl
@[simp] theorem State.setMem_key : (s.setMem m).key = s.key := rfl
@[simp] theorem State.setMem_draws : (s.setMem m).draws = s.draws := rfl

end SetMem

section WriteBytes

variable (s : State) (a : Nat) (bytes : List Byte)

@[simp] theorem State.writeBytes_mem : (s.writeBytes a bytes).mem = s.mem.writeBytes a bytes := rfl
@[simp] theorem State.writeBytes_V : (s.writeBytes a bytes).V = s.V := rfl
@[simp] theorem State.writeBytes_I : (s.writeBytes a bytes).I = s.I := rfl
@[simp] theorem State.writeBytes_pc : (s.writeBytes a bytes).pc = s.pc := rfl
@[simp] theorem State.writeBytes_stack : (s.writeBytes a bytes).stack = s.stack := rfl
@[simp] theorem State.writeBytes_sp : (s.writeBytes a bytes).sp = s.sp := rfl
@[simp] theorem State.writeBytes_fb : (s.writeBytes a bytes).fb = s.fb := rfl
@[simp] theorem State.writeBytes_redraw : (s.writeBytes a bytes).redraw = s.redraw := rfl
@[simp] theorem State.writeBytes_DT : (s.writeBytes a bytes).DT = s.DT := rfl
@[simp] theorem State.writeBytes_ST : (s.writeBytes a bytes).ST = s.ST := rfl
@[simp] theorem State.writeBytes_key : (s.writeBytes a bytes).key = s.key := rfl
@[simp] theorem State.writeBytes_draws : (s.writeBytes a bytes).draws = s.draws := rfl

end WriteBytes

section AdvancePc

variable (s : State)

@[simp] theorem State.advancePc_mem : (s.advancePc).mem = s.mem := rfl
@[simp] theorem State.advancePc_V : (s.advancePc).V = s.V := rfl
@[simp] theorem State.advancePc_I : (s.advancePc).I = s.I := rfl
@[simp] theorem State.advancePc_pc : (s.advancePc).pc = s.pc + 2 := rfl
@[simp] theorem State.advancePc_stack : (s.advancePc).stack = s.stack := rfl
@[simp] theorem State.advancePc_sp : (s.advancePc).sp = s.sp := rfl
@[simp] theorem State.advancePc_fb : (s.advancePc).fb = s.fb := rfl
@[simp] theorem State.advancePc_redraw : (s.advancePc).redraw = s.redraw := rfl
@[simp] theorem State.advancePc_DT : (s.advancePc).DT = s.DT := rfl
@[simp] theorem State.advancePc_ST : (s.advancePc).ST = s.ST := rfl
@[simp] theorem State.advancePc_key : (s.advancePc).key = s.key := rfl
@[simp] theorem State.advancePc_draws : (s.advancePc).draws = s.draws := rfl

end AdvancePc

section PlaceWord

variable (s : State) (w : Word)

@[simp] theorem State.placeWord_mem : (s.placeWord w).mem = s.mem.writeBytes s.pc.toNat [hiByte w, loByte w] := rfl
@[simp] theorem State.placeWord_V : (s.placeWord w).V = s.V := rfl
@[simp] theorem State.placeWord_I : (s.placeWord w).I = s.I := rfl
@[simp] theorem State.placeWord_pc : (s.placeWord w).pc = s.pc := rfl
@[simp] theorem State.placeWord_stack : (s.placeWord w).stack = s.stack := rfl
@[simp] theorem State.placeWord_sp : (s.placeWord w).sp = s.sp := rfl
@[simp] theorem State.placeWord_fb : (s.placeWord w).fb = s.fb := rfl
@[simp] theorem State.placeWord_redraw : (s.placeWord w).redraw = s.redraw := rfl
@[simp] theorem State.placeWord_DT : (s.placeWord w).DT = s.DT := rfl
@[simp] theorem State.placeWord_ST : (s.placeWord w).ST = s.ST := rfl
@[simp] theorem State.placeWord_key : (s.placeWord w).key = s.key := rfl
@[simp] theorem State.placeWord_draws : (s.placeWord w).draws = s.draws := rfl

end PlaceWord

section Push

variable (s : State) (a : Word) (h : s.sp.val < 16)

@[simp] theorem State.push_mem : (s.push a h).mem = s.mem := rfl
@[simp] theorem State.push_V : (s.push a h).V = s.V := rfl
@[simp] theorem State.push_I : (s.push a h).I = s.I := rfl
@[simp] theorem State.push_pc : (s.push a h).pc = s.pc := rfl
@[simp] theorem State.push_stack : (s.push a h).stack = s.stack.set s.sp.val a h := rfl
@[simp] theorem State.push_sp : (s.push a h).sp = ⟨s.sp.val + 1, Nat.succ_lt_succ h⟩ := rfl
@[simp] theorem State.push_fb : (s.push a h).fb = s.fb := rfl
@[simp] theorem State.push_redraw : (s.push a h).redraw = s.redraw := rfl
@[simp] theorem State.push_DT : (s.push a h).DT = s.DT := rfl
@[simp] theorem State.push_ST : (s.push a h).ST = s.ST := rfl
@[simp] theorem State.push_key : (s.push a h).key = s.key := rfl
@[simp] theorem State.push_draws : (s.push a h).draws = s.draws := rfl

end Push

section PopPc

variable (s : State) (h : 0 < s.sp.val)

@[simp] theorem State.popPc_mem : (s.popPc h).mem = s.mem := rfl
@[simp] theorem State.popPc_V : (s.popPc h).V = s.V := rfl
@[simp] theorem State.popPc_I : (s.popPc h).I = s.I := rfl
@[simp] theorem State.popPc_pc : (s.popPc h).pc = s.stack[s.sp.val - 1]'(by have := s.sp.isLt; omega) := rfl
@[simp] theorem State.popPc_stack : (s.popPc h).stack = s.stack := rfl
@[simp] theorem State.popPc_sp : (s.popPc h).sp = ⟨s.sp.val - 1, by have := s.sp.isLt; omega⟩ := rfl
@[simp] theorem State.popPc_fb : (s.popPc h).fb = s.fb := rfl
@[simp] theorem State.popPc_redraw : (s.popPc h).redraw = s.redraw := rfl
@[simp] theorem State.popPc_DT : (s.popPc h).DT = s.DT := rfl
@[simp] theorem State.popPc_ST : (s.popPc h).ST = s.ST := rfl
@[simp] theorem State.popPc_key : (s.popPc h).key = s.key := rfl
@[simp] theorem State.popPc_draws : (s.popPc h).draws = s.draws := rfl

end PopPc

section SetFlag

variable (s : State) (f : Bool)

@[simp] theorem State.setFlag_mem : (s.setFlag f).mem = s.mem := rfl
@[simp] theorem State.setFlag_V : (s.setFlag f).V = s.V.set VF.val (flagByte f) VF.isLt := rfl
@[simp] theorem State.setFlag_I : (s.setFlag f).I = s.I := rfl
@[simp] theorem State.setFlag_pc : (s.setFlag f).pc = s.pc := rfl
@[simp] theorem State.setFlag_stack : (s.setFlag f).stack = s.stack := rfl
@[simp] theorem State.setFlag_sp : (s.setFlag f).sp = s.sp := rfl
@[simp] theorem State.setFlag_fb : (s.setFlag f).fb = s.fb := rfl
@[simp] theorem State.setFlag_redraw : (s.setFlag f).redraw = s.redraw := rfl
@[simp] theorem State.setFlag_DT : (s.setFlag f).DT = s.DT := rfl
@[simp] theorem State.setFlag_ST : (s.setFlag f).ST = s.ST := rfl
@[simp] theorem State.setFlag_key : (s.setFlag f).key = s.key := rfl
@[simp] theorem State.setFlag_draws : (s.setFlag f).draws = s.draws := rfl

end SetFlag

section SetRegFlag

variable (s : State) (x : Index) (r : Byte) (f : Bool)

@[simp] theorem State.setRegFlag_mem : (s.setRegFlag x r f).mem = s.mem := rfl
@[simp] theorem State.setRegFlag_V : (s.setRegFlag x r f).V = (s.V.set x.val r x.isLt).set VF.val (flagByte f) VF.isLt := rfl
@[simp] theorem State.setRegFlag_I : (s.setRegFlag x r f).I = s.I := rfl
@[simp] theorem State.setRegFlag_pc : (s.setRegFlag x r f).pc = s.pc := rfl
@[simp] theorem State.setRegFlag_stack : (s.setRegFlag x r f).stack = s.stack := rfl
@[simp] theorem State.setRegFlag_sp : (s.setRegFlag x r f).sp = s.sp := rfl
@[simp] theorem State.setRegFlag_fb : (s.setRegFlag x r f).fb = s.fb := rfl
@[simp] theorem State.setRegFlag_redraw : (s.setRegFlag x r f).redraw = s.redraw := rfl
@[simp] theorem State.setRegFlag_DT : (s.setRegFlag x r f).DT = s.DT := rfl
@[simp] theorem State.setRegFlag_ST : (s.setRegFlag x r f).ST = s.ST := rfl
@[simp] theorem State.setRegFlag_key : (s.setRegFlag x r f).key = s.key := rfl
@[simp] theorem State.setRegFlag_draws : (s.setRegFlag x r f).draws = s.draws := rfl

end SetRegFlag

section SkipIf

variable (s : State) (c : Bool)

@[simp] theorem State.skipIf_mem : (s.skipIf c).mem = s.mem := by cases c <;> rfl
@[simp] theorem State.skipIf_V : (s.skipIf c).V = s.V := by cases c <;> rfl
@[simp] theorem State.skipIf_I : (s.skipIf c).I = s.I := by cases c <;> rfl
@[simp] theorem State.skipIf_pc : (s.skipIf c).pc = if c then s.pc + 2 else s.pc := by cases c <;> rfl
@[simp] theorem State.skipIf_stack : (s.skipIf c).stack = s.stack := by cases c <;> rfl
@[simp] theorem State.skipIf_sp : (s.skipIf c).sp = s.sp := by cases c <;> rfl
@[simp] theorem State.skipIf_fb : (s.skipIf c).fb = s.fb := by cases c <;> rfl
@[simp] theorem State.skipIf_redraw : (s.skipIf c).redraw = s.redraw := by cases c <;> rfl
@[simp] theorem State.skipIf_DT : (s.skipIf c).DT = s.DT := by cases c <;> rfl
@[simp] theorem State.skipIf_ST : (s.skipIf c).ST = s.ST := by cases c <;> rfl
@[simp] theorem State.skipIf_key : (s.skipIf c).key = s.key := by cases c <;> rfl
@[simp] theorem State.skipIf_draws : (s.skipIf c).draws = s.draws := by cases c <;> rfl

end SkipIf

end Sys2Proof.Machine
end

