-- ==== Sys2Proof/Laws/Display.lean ====
section
/-! SUPPORT. What the compositor does to a pixel. A sprite is a list of dots, each a sprite bit and a framebuffer index; drawing
dots that fall on distinct pixels XORs each lit dot into its pixel and reports the lit dots that met a set pixel. -/

namespace Sys2Proof.Machine

theorem pixelIndex_lt (x y : Nat) : pixelIndex x y < 2048 := by
  simp only [pixelIndex, Config.fbWidth, Config.fbHeight]; omega

theorem pixel_paint (s : State) (fb : Frame) (p : Nat) : pixel (s.paint fb).fb p = pixel fb p := rfl

/-- One dot changes at most its own pixel. -/
theorem pixel_drawPixel (bit : Bool) (p q : Nat) (hp : p < 2048) (acc : Frame × Bool) :
    pixel (drawPixel bit p acc).1 q = (pixel acc.1 q ^^ (bit && decide (p = q))) := by
  cases bit
  · simp [drawPixel]
  · simp [drawPixel, pixel, BitVec.getLsbD_xor, BitVec.getLsbD_twoPow, hp]

/-- A lit dot on a set pixel is a collision. -/
theorem drawPixel_snd (bit : Bool) (p : Nat) (acc : Frame × Bool) :
    (drawPixel bit p acc).2 = (acc.2 || (bit && pixel acc.1 p)) := by
  cases bit <;> simp [drawPixel]

/-- Dots drawn one after another. -/
def drawDots (dots : List (Bool × Nat)) (acc : Frame × Bool) : Frame × Bool :=
  dots.foldl (fun a d => drawPixel d.1 d.2 a) acc

/-- Dots on distinct pixels, drawn in any order: each lit dot flips its pixel, no other pixel changes, and a collision is
reported when a lit dot met a set pixel. -/
theorem drawDots_spec (dots : List (Bool × Nat)) (acc : Frame × Bool) (hlt : ∀ d ∈ dots, d.2 < 2048)
    (hne : (dots.map Prod.snd).Nodup) :
    (∀ q, pixel (drawDots dots acc).1 q = (pixel acc.1 q ^^ dots.any (fun d => d.1 && decide (d.2 = q)))) ∧
      (drawDots dots acc).2 = (acc.2 || dots.any (fun d => d.1 && pixel acc.1 d.2)) := by
  induction dots generalizing acc with
  | nil => simp [drawDots]
  | cons d dots ih =>
    simp only [List.map_cons, List.nodup_cons, List.mem_map, not_exists, not_and] at hne
    have hd : d.2 < 2048 := hlt d (by simp)
    obtain ⟨hpix, hcol⟩ := ih (drawPixel d.1 d.2 acc) (fun e he => hlt e (by simp [he])) hne.2
    have hstep : drawDots (d :: dots) acc = drawDots dots (drawPixel d.1 d.2 acc) := rfl
    refine ⟨fun q => ?_, ?_⟩
    · rw [hstep, hpix, pixel_drawPixel _ _ _ hd, List.any_cons]
      by_cases hq : d.2 = q
      · have : dots.any (fun e => e.1 && decide (e.2 = q)) = false := by
          rw [List.any_eq_false]
          intro e he
          have := hne.1 e he
          simp only [Bool.and_eq_true, decide_eq_true_eq, not_and]
          intro _ h; exact this (h.trans hq.symm)
        simp [this]
      · simp [hq]
    · rw [hstep, hcol, drawPixel_snd, List.any_cons]
      have : (dots.any fun e => e.1 && pixel (drawPixel d.1 d.2 acc).1 e.2) = dots.any fun e => e.1 && pixel acc.1 e.2 := by
        have key : ∀ e ∈ dots, pixel (drawPixel d.1 d.2 acc).1 e.2 = pixel acc.1 e.2 := by
          intro e he
          have hde : ¬ d.2 = e.2 := fun h => hne.1 e he h.symm
          simp [pixel_drawPixel _ _ _ hd, hde]
        rw [Bool.eq_iff_iff, List.any_eq_true, List.any_eq_true]
        exact exists_congr fun e => and_congr_right fun he => by rw [key e he]
      rw [this, Bool.or_assoc]

/-- The dots of one sprite row. -/
def rowDots (x y : Nat) (b : Byte) : List (Bool × Nat) :=
  (List.range 8).map (fun col => (spriteBit b col, pixelIndex (x + col) y))

/-- The dots of a sprite, row by row. -/
def State.spriteDots (s : State) (x y n : Nat) : List (Bool × Nat) :=
  (List.range n).flatMap (fun r => rowDots x (y + r) (s.readByte (s.dataAddr r)))

theorem drawRow_eq (x y : Nat) (b : Byte) (acc : Frame × Bool) : drawRow x y b acc = drawDots (rowDots x y b) acc := by
  simp only [drawRow, drawDots, rowDots, List.foldl_map]

theorem State.drawRows_eq (s : State) (x y n : Nat) :
    s.drawRows x y n = drawDots (s.spriteDots x y n) (s.fb, false) := by
  simp only [State.drawRows, State.spriteDots, drawDots, List.foldl_flatMap, drawRow_eq]

theorem State.mem_spriteDots {s : State} {x y n : Nat} {d : Bool × Nat} :
    d ∈ s.spriteDots x y n ↔
      ∃ r < n, ∃ col < 8, d = (spriteBit (s.readByte (s.dataAddr r)) col, pixelIndex (x + col) (y + r)) := by
  simp only [State.spriteDots, List.mem_flatMap, List.mem_range, rowDots, List.mem_map, eq_comm]

theorem State.spriteDots_lt {s : State} {x y n : Nat} : ∀ d ∈ s.spriteDots x y n, d.2 < 2048 := by
  intro d hd
  obtain ⟨r, _, col, _, rfl⟩ := State.mem_spriteDots.mp hd
  exact pixelIndex_lt _ _

/-- "No two sprite bits of one instruction land on the same pixel" (R190). -/
theorem State.spriteDots_nodup (s : State) (x y n : Nat) (hn : n ≤ 32) :
    ((s.spriteDots x y n).map Prod.snd).Nodup := by
  simp only [State.spriteDots, List.map_flatMap, rowDots, List.map_map, Function.comp_def]
  rw [List.nodup_flatMap]
  refine ⟨fun r _ => ?_, ?_⟩
  · refine List.Nodup.map_on ?_ List.nodup_range
    intro a ha b hb h
    simp only [List.mem_range] at ha hb
    simp only [pixelIndex, Config.fbWidth, Config.fbHeight] at h
    omega
  · refine List.Pairwise.imp_of_mem ?_ (List.nodup_range (n := n))
    intro a b ha hb hab
    simp only [List.mem_range] at ha hb
    intro p hp hq
    simp only [List.mem_map, List.mem_range] at hp hq
    obtain ⟨c, hc, rfl⟩ := hp
    obtain ⟨c', hc', h⟩ := hq
    simp only [pixelIndex, Config.fbWidth, Config.fbHeight] at h
    omega

end Sys2Proof.Machine
end

