-- ==== Sys2Proof/Laws/Memory.lean ====
section
/-! SUPPORT. What the memory operations do: reads after writes, and the canonical form kept by every operation. -/

namespace Sys2Proof.Machine

theorem physical_lt (a : Nat) : physical a < 4096 := Nat.mod_lt _ (by decide)

@[simp] theorem physical_physical (a : Nat) : physical (physical a) = physical a := Nat.mod_mod _ _

/-- Addresses wrap at 4096 (R60). -/
theorem physical_add_memSize (a : Nat) : physical (a + 4096) = physical a := by simp [physical]

theorem Memory.read_physical (m : Memory) (a : Nat) : m.read (physical a) = m.read a := by
  simp [Memory.read]

/-! ## Reads after writes -/

theorem Memory.find_insert (a b : Nat) (v : Byte) (m : Memory) :
    Memory.find a (Memory.insert b v m) = if a = b then some v else Memory.find a m := by
  induction m with
  | nil => rfl
  | cons c m ih =>
    obtain ⟨d, u⟩ := c
    rw [Memory.insert]
    rcases Nat.lt_trichotomy b d with h | h | h
    · rw [if_pos h, Memory.find]
    · subst h; rw [if_neg (by omega), if_pos rfl, Memory.find, Memory.find]; split_ifs <;> rfl
    · rw [if_neg (by omega), if_neg (by omega), Memory.find, Memory.find, ih]
      by_cases hd : a = d
      · rw [if_pos hd, if_neg (by omega), if_pos hd]
      · rw [if_neg hd, if_neg hd]

theorem Memory.find_erase (a b : Nat) (m : Memory) :
    Memory.find a (Memory.erase b m) = if a = b then none else Memory.find a m := by
  induction m with
  | nil => simp [Memory.erase, Memory.find]
  | cons c m ih =>
    obtain ⟨d, u⟩ := c
    simp only [Memory.erase, List.filter_cons] at ih ⊢
    by_cases hd : d = b
    · subst hd; simp only [bne_self_eq_false, Bool.false_eq_true, if_false, ih, Memory.find]; split_ifs <;> rfl
    · have : (d != b) = true := by simpa using hd
      simp only [this, if_true, Memory.find, ih]
      by_cases ha : a = d
      · have : a ≠ b := by omega
        simp [ha, hd]
      · simp [ha]

/-- "A read returns the last value written to that byte" (R65), and a write leaves every other byte alone. -/
theorem Memory.read_write (m : Memory) (a b : Nat) (v : Byte) :
    (m.write a v).read b = if physical b = physical a then v else m.read b := by
  unfold Memory.write Memory.read
  split_ifs with hv hp hp
  · rw [Memory.find_erase, if_pos hp, hv, hp]; rfl
  · rw [Memory.find_erase, if_neg hp]
  · rw [Memory.find_insert, if_pos hp]; rfl
  · rw [Memory.find_insert, if_neg hp]

/-- A sequence of writes leaves alone every byte that none of its addresses selects. -/
theorem Memory.read_writeBytes_of_ne (vs : List Byte) (m : Memory) (a b : Nat)
    (h : ∀ k < vs.length, physical b ≠ physical (a + k)) : (m.writeBytes a vs).read b = m.read b := by
  induction vs generalizing m a with
  | nil => rfl
  | cons v vs ih =>
    rw [Memory.writeBytes, ih, Memory.read_write, if_neg]
    · simpa using h 0 (by simp)
    · intro k hk
      have := h (k + 1) (by simpa using hk)
      rwa [Nat.add_assoc, Nat.add_comm 1 k]

/-- Byte `k` of a sequence of at most 4096 writes is what its address reads as afterwards: the addresses are distinct. -/
theorem Memory.read_writeBytes_of_lt (vs : List Byte) (m : Memory) (a k : Nat) (hk : k < vs.length)
    (hl : vs.length ≤ 4096) : (m.writeBytes a vs).read (a + k) = vs[k] := by
  induction vs generalizing m a k with
  | nil => simp at hk
  | cons v vs ih =>
    simp only [List.length_cons] at hk hl
    cases k with
    | zero =>
      rw [Memory.writeBytes, Memory.read_writeBytes_of_ne, Memory.read_write]
      · simp
      · intro j hj; simp only [physical, Config.memSize]; omega
    | succ k =>
      rw [Memory.writeBytes, show a + (k + 1) = (a + 1) + k by omega, ih _ _ _ (by omega) (by omega)]
      rfl

/-! ## The canonical form -/

/-- An address may stand first in the rest of a memory whose last address was `lo`. -/
def Memory.isAbove (lo : Option Nat) (a : Nat) : Prop := ∀ b, lo = some b → b < a

theorem Memory.wfAbove_cons (lo : Option Nat) (a : Nat) (v : Byte) (m : Memory) :
    Memory.wfAbove lo ((a, v) :: m) = true ↔
      Memory.isAbove lo a ∧ a < 4096 ∧ v ≠ unlisted a ∧ Memory.wfAbove (some a) m = true := by
  cases lo <;> simp [Memory.wfAbove, Memory.isAbove, and_assoc]

theorem Memory.wfAbove_weaken {lo : Option Nat} {a : Nat} {m : Memory} (h : Memory.wfAbove (some a) m = true)
    (hlo : Memory.isAbove lo a) : Memory.wfAbove lo m = true := by
  cases m with
  | nil => rfl
  | cons c m =>
    obtain ⟨d, u⟩ := c
    rw [Memory.wfAbove_cons] at h ⊢
    exact ⟨fun b hb => (hlo b hb).trans (h.1 a rfl), h.2⟩

theorem Memory.wfAbove_insert {lo : Option Nat} {a : Nat} {v : Byte} {m : Memory} (h : Memory.wfAbove lo m = true)
    (hlo : Memory.isAbove lo a) (ha : a < 4096) (hv : v ≠ unlisted a) :
    Memory.wfAbove lo (Memory.insert a v m) = true := by
  induction m generalizing lo with
  | nil => rw [Memory.insert, Memory.wfAbove_cons]; exact ⟨hlo, ha, hv, rfl⟩
  | cons c m ih =>
    obtain ⟨d, u⟩ := c
    have hc := (Memory.wfAbove_cons ..).mp h
    unfold Memory.insert
    split_ifs with h1 h2
    · rw [Memory.wfAbove_cons]
      refine ⟨hlo, ha, hv, (Memory.wfAbove_cons ..).mpr ⟨?_, hc.2⟩⟩
      rintro _ ⟨⟩; exact h1
    · subst h2; rw [Memory.wfAbove_cons]; exact ⟨hlo, ha, hv, hc.2.2.2⟩
    · rw [Memory.wfAbove_cons]
      refine ⟨hc.1, hc.2.1, hc.2.2.1, ih hc.2.2.2 ?_⟩
      rintro _ ⟨⟩; omega

theorem Memory.wfAbove_erase {lo : Option Nat} {a : Nat} {m : Memory} (h : Memory.wfAbove lo m = true) :
    Memory.wfAbove lo (Memory.erase a m) = true := by
  induction m generalizing lo with
  | nil => rfl
  | cons c m ih =>
    obtain ⟨d, u⟩ := c
    have hc := (Memory.wfAbove_cons ..).mp h
    simp only [Memory.erase, List.filter_cons] at ih ⊢
    split_ifs
    · exact (Memory.wfAbove_cons ..).mpr ⟨hc.1, hc.2.1, hc.2.2.1, ih hc.2.2.2⟩
    · exact ih (Memory.wfAbove_weaken hc.2.2.2 hc.1)

theorem Memory.wf_nil : Memory.wf [] = true := rfl

theorem Memory.wf_write {m : Memory} (h : m.wf = true) (a : Nat) (v : Byte) : (m.write a v).wf = true := by
  unfold Memory.write
  split_ifs with hv
  · exact Memory.wfAbove_erase h
  · exact Memory.wfAbove_insert h (fun _ hb => nomatch hb) (physical_lt a) hv

theorem Memory.wf_writeBytes {m : Memory} (h : m.wf = true) (a : Nat) (vs : List Byte) :
    (m.writeBytes a vs).wf = true := by
  induction vs generalizing m a with
  | nil => exact h
  | cons v vs ih => exact ih (Memory.wf_write h a v) (a + 1)

/-- Below the first listed address nothing is listed. -/
theorem Memory.find_eq_none {lo : Option Nat} {m : Memory} (h : Memory.wfAbove lo m = true) {a : Nat}
    (ha : lo = some a) : Memory.find a m = none := by
  induction m generalizing lo with
  | nil => rfl
  | cons c m ih =>
    obtain ⟨d, u⟩ := c
    have hc := (Memory.wfAbove_cons ..).mp h
    have had := hc.1 a ha
    rw [Memory.find, if_neg (by omega)]
    have : Memory.wfAbove (some a) m = true :=
      Memory.wfAbove_weaken hc.2.2.2 (fun b hb => by cases hb; exact had)
    exact ih this rfl

theorem Memory.find_ne_unlisted {lo : Option Nat} {m : Memory} (h : Memory.wfAbove lo m = true) {a : Nat} {v : Byte}
    (hf : Memory.find a m = some v) : v ≠ unlisted a ∧ a < 4096 ∧ Memory.isAbove lo a := by
  induction m generalizing lo with
  | nil => simp [Memory.find] at hf
  | cons c m ih =>
    obtain ⟨d, u⟩ := c
    have hc := (Memory.wfAbove_cons ..).mp h
    rw [Memory.find] at hf
    split_ifs at hf with had
    · cases hf; subst had; exact ⟨hc.2.2.1, hc.2.1, hc.1⟩
    · have := ih hc.2.2.2 hf
      exact ⟨this.1, this.2.1, fun b hb => (hc.1 b hb).trans (this.2.2 d rfl)⟩

/-- Canonical memories that list the same bytes are the same list. -/
theorem Memory.eq_of_find {lo : Option Nat} {m m' : Memory} (h : Memory.wfAbove lo m = true)
    (h' : Memory.wfAbove lo m' = true) (hf : ∀ a, Memory.find a m = Memory.find a m') : m = m' := by
  induction m generalizing lo m' with
  | nil =>
    cases m' with
    | nil => rfl
    | cons c m' => simpa [Memory.find] using hf c.1
  | cons c m ih =>
    obtain ⟨d, u⟩ := c
    have hc := (Memory.wfAbove_cons ..).mp h
    cases m' with
    | nil => simpa [Memory.find] using hf d
    | cons c' m' =>
      obtain ⟨d', u'⟩ := c'
      have hc' := (Memory.wfAbove_cons ..).mp h'
      have hd : d = d' := by
        rcases Nat.lt_trichotomy d d' with hlt | heq | hlt
        · have h1 := hf d
          rw [Memory.find, if_pos rfl, Memory.find, if_neg (by omega)] at h1
          have := (Memory.find_ne_unlisted hc'.2.2.2 h1.symm).2.2 d' rfl
          omega
        · exact heq
        · have h1 := hf d'
          rw [Memory.find, if_neg (by omega), Memory.find, if_pos rfl] at h1
          have := (Memory.find_ne_unlisted hc.2.2.2 h1).2.2 d rfl
          omega
      subst hd
      have hu := hf d
      rw [Memory.find, if_pos rfl, Memory.find, if_pos rfl] at hu
      have htail : m = m' := by
        refine ih hc.2.2.2 hc'.2.2.2 fun a => ?_
        by_cases had : a = d
        · subst had
          rw [Memory.find_eq_none hc.2.2.2 rfl, Memory.find_eq_none hc'.2.2.2 rfl]
        · have := hf a
          rwa [Memory.find, if_neg had, Memory.find, if_neg had] at this
      cases hu
      rw [htail]

/-- Equal memories are equal data: canonical memories that read the same at every address are the same list. -/
theorem Memory.eq_of_read {m m' : Memory} (h : m.wf = true) (h' : m'.wf = true)
    (hr : ∀ a < 4096, m.read a = m'.read a) : m = m' := by
  refine Memory.eq_of_find h h' fun a => ?_
  by_cases ha : a < 4096
  · have hp : physical a = a := Nat.mod_eq_of_lt ha
    have hra := hr a ha
    simp only [Memory.read, hp] at hra
    cases hm : Memory.find a m with
    | none =>
      cases hm' : Memory.find a m' with
      | none => rfl
      | some v => exact absurd (by simpa [hm, hm'] using hra.symm) (Memory.find_ne_unlisted h' hm').1
    | some u =>
      cases hm' : Memory.find a m' with
      | none => exact absurd (by simpa [hm, hm'] using hra) (Memory.find_ne_unlisted h hm).1
      | some v => simpa [hm, hm'] using hra
  · cases hm : Memory.find a m with
    | none =>
      cases hm' : Memory.find a m' with
      | none => rfl
      | some v => exact absurd (Memory.find_ne_unlisted h' hm').2.1 ha
    | some u => exact absurd (Memory.find_ne_unlisted h hm).2.1 ha

end Sys2Proof.Machine
end

