-- ==== Sys2Proof/Laws/Ops.lean ====
section
/-! SUPPORT. What the shared operations do, one lemma each: registers, bytes, the call stack, the fetch, the key scan, the
register load and the host's operations. -/

namespace Sys2Proof.Machine

/-! ## Registers -/

theorem State.reg_setReg (s : State) (x r : Index) (v : Byte) : (s.setReg x v).reg r = if x = r then v else s.reg r := by
  simp only [State.reg, State.setReg, Fin.getElem_fin, Vector.getElem_set, Fin.ext_iff]

theorem State.reg_setRegFlag (s : State) (x r : Index) (v : Byte) (f : Bool) :
    (s.setRegFlag x v f).reg r = if VF = r then flagByte f else if x = r then v else s.reg r := by
  rw [State.setRegFlag, State.setFlag, State.reg_setReg, State.reg_setReg]

@[simp] theorem State.reg_setPc (s : State) (a : Word) (r : Index) : (s.setPc a).reg r = s.reg r := rfl
@[simp] theorem State.reg_advancePc (s : State) (r : Index) : s.advancePc.reg r = s.reg r := rfl

theorem flagByte_eq (b : Bool) : flagByte b = if b then 1 else 0 := rfl

/-! ## Bytes -/

theorem State.readByte_writeBytes_of_ne (s : State) (a b : Nat) (vs : List Byte)
    (h : ∀ k < vs.length, physical b ≠ physical (a + k)) : (s.writeBytes a vs).readByte b = s.readByte b :=
  Memory.read_writeBytes_of_ne vs s.mem a b h

theorem State.readByte_writeBytes_of_lt (s : State) (a k : Nat) (vs : List Byte) (hk : k < vs.length)
    (hl : vs.length ≤ 4096) : (s.writeBytes a vs).readByte (a + k) = vs[k] :=
  Memory.read_writeBytes_of_lt vs s.mem a k hk hl

/-! ## Fetch -/

/-- The word stored at pc is the word fetched next (R62, R74). -/
theorem State.fetchWord_placeWord (s : State) (w : Word) : (s.placeWord w).fetchWord = w := by
  have h0 : (s.placeWord w).readByte s.pc.toNat = hiByte w :=
    State.readByte_writeBytes_of_lt s s.pc.toNat 0 [hiByte w, loByte w] (by simp) (by simp)
  have h1 : (s.placeWord w).readByte (s.pc.toNat + 1) = loByte w :=
    State.readByte_writeBytes_of_lt s s.pc.toNat 1 [hiByte w, loByte w] (by simp) (by simp)
  rw [State.fetchWord, State.placeWord_pc, h0, h1, wordOfBytes_hi_lo]

/-! ## Operands -/

theorem State.lowestPressed_eq_some {s : State} {k : Index} (h : s.lowestPressed = some k) :
    s.pressed k = true ∧ ∀ j < k, s.pressed j = false := by
  obtain ⟨hk, i, hi, hki, hlt⟩ := List.find?_eq_some_iff_getElem.mp h
  refine ⟨hk, fun j hj => ?_⟩
  simp only [List.getElem_finRange] at hki
  have hik : i = k.val := by rw [← hki]; rfl
  have := hlt j.val (by rw [hik]; exact hj)
  simpa using this

theorem State.lowestPressed_eq_none {s : State} (h : s.lowestPressed = none) (k : Index) : s.pressed k = false := by
  simpa using List.find?_eq_none.mp h k (List.mem_finRange k)

theorem State.length_regsUpTo (s : State) (x : Index) : (s.regsUpTo x).length = x.val + 1 := by
  have := x.isLt
  simp only [State.regsUpTo, List.length_take, Vector.length_toList]; omega

theorem State.getElem_regsUpTo (s : State) (x : Index) (k : Nat) (hk : k < (s.regsUpTo x).length) :
    (s.regsUpTo x)[k] = s.V[k]'(by rw [State.length_regsUpTo] at hk; have := x.isLt; omega) := by
  simp only [State.regsUpTo, List.getElem_take, Vector.getElem_toList]

/-- The loop of R185: register `r` is read if it is among the first `n`, and kept if not. -/
theorem State.getElem_loadRegs (s : State) (n r : Nat) (hr : r < 16) :
    (s.loadRegs n)[r] = if r < n then s.readByte (s.dataAddr r) else s.V[r] := by
  induction n with
  | zero => simp [State.loadRegs]
  | succ n ih =>
    have h : s.loadRegs (n + 1) = (s.loadRegs n).setIfInBounds n (s.readByte (s.dataAddr n)) := by
      simp only [State.loadRegs, List.range_succ, List.foldl_append, List.foldl_cons, List.foldl_nil]
    simp only [h, Vector.getElem_setIfInBounds, ih]
    rcases Nat.lt_trichotomy r n with hlt | heq | hgt
    · rw [if_neg (by omega), if_pos hlt, if_pos (by omega)]
    · subst heq; rw [if_pos rfl, if_pos (by omega)]
    · rw [if_neg (by omega), if_neg (by omega), if_neg (by omega)]

/-! ## The host's operations -/

theorem tickByte_toNat (t : Byte) : (tickByte t).toNat = t.toNat - 1 := by
  have := t.isLt
  unfold tickByte
  split_ifs
  · rw [BitVec.toNat_sub]
    have h1 : (1 : Byte).toNat = 1 := rfl
    rw [h1]; omega
  · omega

theorem loadRom_of_le {bytes : List Byte} (h : bytes.length ≤ 3584) (s : State) :
    loadRom bytes s = (s.writeBytes 0x200 bytes, .ok) := by
  rw [loadRom, if_neg (by simp only [Config.maxRom]; omega)]; rfl

theorem loadRom_of_gt {bytes : List Byte} (h : 3584 < bytes.length) (s : State) :
    loadRom bytes s = (s, .error .romTooLarge) := by
  rw [loadRom, if_pos (by simp only [Config.maxRom]; omega)]; rfl

end Sys2Proof.Machine
end

