-- ==== Sys2Proof/Laws/Exec.lean ====
section
/-! SUPPORT. What a meaning can do, said once: how memory changes, what any address reads after a
store at `I`, and what a step is. -/

namespace Sys2Proof.Machine

/-- An instruction leaves memory alone or writes a sequence of bytes into it (R67). -/
theorem exec_mem {i : Instr} {s t : State} (h : exec i s = .next t) :
    t.mem = s.mem ∨ ∃ a bytes, t.mem = s.mem.writeBytes a bytes := by
  cases i
  case ret =>
    cases h
    left; simp only [returnResult]; split <;> rfl
  case call addr =>
    cases h
    left; simp only [callResult]; split <;> rfl
  case waitForKey x =>
    left
    simp only [exec, execWaitForKey] at h
    split at h <;> cases h <;> rfl
  case storeBCD x => cases h; exact .inr ⟨_, _, rfl⟩
  case saveRegisters x => cases h; exact .inr ⟨_, _, rfl⟩
  all_goals
    cases h
    left
    first | rfl | simp

/-- What every address reads after a store from `I` on (R61, R67). -/
theorem readByte_store (s : State) (bytes : List Byte) (hl : bytes.length ≤ 16) (a : Nat) :
    (s.writeBytes (s.dataAddr 0) bytes).readByte a = Safety.byteAfterStore s bytes a := by
  unfold Safety.byteAfterStore
  have hI := s.I.isLt
  by_cases h : (a % 4096 + 4096 - s.I.toNat % 4096) % 4096 < bytes.length
  · have haddr : physical a = physical (s.dataAddr 0 + (a % 4096 + 4096 - s.I.toNat % 4096) % 4096) := by
      simp only [physical, State.dataAddr, Config.memSize]; omega
    rw [List.getElem?_eq_getElem h, Option.getD_some, ← s.readByte_writeBytes_of_lt (s.dataAddr 0) _ bytes h (by omega)]
    simp only [State.readByte, Memory.read, haddr]
  · rw [List.getElem?_eq_none (by omega), Option.getD_none]
    refine s.readByte_writeBytes_of_ne _ _ _ fun k hk => ?_
    simp only [physical, State.dataAddr, Config.memSize]; omega

/-- A step is an instruction run with pc advanced, or, for an unknown opcode, the advance alone (R120). -/
theorem step_cases (s : State) :
    (∃ i, decodeWord s.fetchWord = .ok i ∧ step s = exec i s.advancePc) ∨
      (decodeWord s.fetchWord = .error (.unknownOpcode s.fetchWord) ∧ step s = .next s.advancePc) := by
  cases h : decodeWord s.fetchWord with
  | ok i => exact .inl ⟨i, rfl, by simp only [step, h]⟩
  | error e => exact .inr ⟨by rw [(decodeWord_error h).1], by simp only [step, h]; rfl⟩

end Sys2Proof.Machine
end

