-- ==== Sys2Proof/Laws/PerInstr.lean ====
section
/-! SUPPORT. Statements made for every instruction, one lemma a constructor (LAWS.json). Family `EncodedRow`: the table has a row
that selects the word of a well-formed instruction and reads the operands back from it. -/

namespace Sys2Proof.Laws.EncodedRow

/-- A row of the table selects the instruction's word, and reads this instruction from it (R91 to R93). -/
def Statement (i : Instr) : Prop :=
  i.wf = true → ∃ r ∈ opcodeRows, r.selects (encode i) = true ∧ r.form (encode i) = i

/-! One lemma for each format of R91: the row is named by its place in the table. -/

theorem of_addr (c : Word → Instr) (addr : Word) (op k : Nat) (hop : op < 16) (hk : k < opcodeRows.length)
    (hr : opcodeRows[k] = ⟨0xF000, BitVec.ofNat 16 (op * 4096), fun w => c (fieldAddr w)⟩)
    (he : encode (c addr) = wordAddr op addr) (hw : (c addr).wf = wfAddr addr) : Statement (c addr) := fun h => by
  refine ⟨_, List.getElem_mem hk, ?_, ?_⟩ <;> rw [hr, he]
  · rw [OpcodeRow.selects_iff, toNat_and_F000, toNat_wordAddr hop, BitVec.toNat_ofNat]; omega
  · change c (fieldAddr _) = _
    rw [fieldAddr_wordAddr hop (hw ▸ h)]

theorem of_xkk (c : Index → Byte → Instr) (x : Index) (kk : Byte) (op k : Nat) (hop : op < 16) (hk : k < opcodeRows.length)
    (hr : opcodeRows[k] = ⟨0xF000, BitVec.ofNat 16 (op * 4096), fun w => c (fieldX w) (fieldKK w)⟩)
    (he : encode (c x kk) = wordXKK op x kk) : Statement (c x kk) := fun _ => by
  have := x.isLt; have := kk.isLt
  refine ⟨_, List.getElem_mem hk, ?_, ?_⟩ <;> rw [hr, he]
  · rw [OpcodeRow.selects_iff, toNat_and_F000, toNat_wordXKK hop, BitVec.toNat_ofNat]; omega
  · change c (fieldX _) (fieldKK _) = _
    rw [fieldX_wordXKK hop, fieldKK_wordXKK hop]

theorem of_xy (c : Index → Index → Instr) (x y : Index) (op sub k : Nat) (hop : op < 16) (hs : sub < 16)
    (hk : k < opcodeRows.length)
    (hr : opcodeRows[k] = ⟨0xF00F, BitVec.ofNat 16 (op * 4096 + sub), fun w => c (fieldX w) (fieldY w)⟩)
    (he : encode (c x y) = wordXYN op x y sub) : Statement (c x y) := fun _ => by
  have := x.isLt; have := y.isLt
  refine ⟨_, List.getElem_mem hk, ?_, ?_⟩ <;> rw [hr, he]
  · rw [OpcodeRow.selects_iff, toNat_and_F00F, toNat_wordXYN hop, BitVec.toNat_ofNat]; omega
  · change c (fieldX _) (fieldY _) = _
    rw [fieldX_wordXYN hop, fieldY_wordXYN hop]

/-- Format XY with the `y` field ignored (R96). -/
theorem of_xy_ignored (c : Index → Instr) (x : Index) (op sub k : Nat) (hop : op < 16) (hs : sub < 16)
    (hk : k < opcodeRows.length)
    (hr : opcodeRows[k] = ⟨0xF00F, BitVec.ofNat 16 (op * 4096 + sub), fun w => c (fieldX w)⟩)
    (he : encode (c x) = wordXYN op x 0 sub) : Statement (c x) := fun _ => by
  have := x.isLt
  refine ⟨_, List.getElem_mem hk, ?_, ?_⟩ <;> rw [hr, he]
  · rw [OpcodeRow.selects_iff, toNat_and_F00F, toNat_wordXYN hop, BitVec.toNat_ofNat]; simp only [Fin.val_zero]; omega
  · change c (fieldX _) = _
    rw [fieldX_wordXYN hop]

theorem of_xyn (c : Index → Index → Nat → Instr) (x y : Index) (n op k : Nat) (hop : op < 16) (hk : k < opcodeRows.length)
    (hr : opcodeRows[k] = ⟨0xF000, BitVec.ofNat 16 (op * 4096), fun w => c (fieldX w) (fieldY w) (fieldN w)⟩)
    (he : encode (c x y n) = wordXYN op x y n) (hw : (c x y n).wf = wfRows n) : Statement (c x y n) := fun h => by
  have := x.isLt; have := y.isLt
  refine ⟨_, List.getElem_mem hk, ?_, ?_⟩ <;> rw [hr, he]
  · rw [OpcodeRow.selects_iff, toNat_and_F000, toNat_wordXYN hop, BitVec.toNat_ofNat]; omega
  · change c (fieldX _) (fieldY _) (fieldN _) = _
    rw [fieldX_wordXYN hop, fieldY_wordXYN hop, fieldN_wordXYN hop _ _ (hw ▸ h)]

theorem of_x (c : Index → Instr) (x : Index) (op sub k : Nat) (hop : op < 16) (hs : sub < 256) (hk : k < opcodeRows.length)
    (hr : opcodeRows[k] = ⟨0xF0FF, BitVec.ofNat 16 (op * 4096 + sub), fun w => c (fieldX w)⟩)
    (he : encode (c x) = wordX op x sub) : Statement (c x) := fun _ => by
  have := x.isLt
  refine ⟨_, List.getElem_mem hk, ?_, ?_⟩ <;> rw [hr, he]
  · rw [OpcodeRow.selects_iff, toNat_and_F0FF, toNat_wordX hop, BitVec.toNat_ofNat]; omega
  · change c (fieldX _) = _
    rw [fieldX_wordX hop]

/-! The 34 instructions, in the table's order. -/

theorem clear : Statement .clear := fun _ =>
  ⟨opcodeRows[0], List.getElem_mem (by decide), by decide, rfl⟩

theorem ret : Statement .ret := fun _ =>
  ⟨opcodeRows[1], List.getElem_mem (by decide), by decide, rfl⟩

theorem jump (addr : Word) : Statement (.jump addr) :=
  of_addr .jump addr 0x1 24 (by decide) (by decide) rfl rfl rfl

theorem call (addr : Word) : Statement (.call addr) :=
  of_addr .call addr 0x2 25 (by decide) (by decide) rfl rfl rfl

theorem skipIfEqualImmediate (x : Index) (kk : Byte) : Statement (.skipIfEqualImmediate x kk) :=
  of_xkk .skipIfEqualImmediate x kk 0x3 26 (by decide) (by decide) rfl rfl

theorem skipIfNotEqualImmediate (x : Index) (kk : Byte) : Statement (.skipIfNotEqualImmediate x kk) :=
  of_xkk .skipIfNotEqualImmediate x kk 0x4 27 (by decide) (by decide) rfl rfl

theorem skipIfRegistersEqual (x y : Index) : Statement (.skipIfRegistersEqual x y) :=
  of_xy .skipIfRegistersEqual x y 0x5 0x0 13 (by decide) (by decide) (by decide) rfl rfl

theorem loadImmediate (x : Index) (kk : Byte) : Statement (.loadImmediate x kk) :=
  of_xkk .loadImmediate x kk 0x6 28 (by decide) (by decide) rfl rfl

theorem addImmediate (x : Index) (kk : Byte) : Statement (.addImmediate x kk) :=
  of_xkk .addImmediate x kk 0x7 29 (by decide) (by decide) rfl rfl

theorem copy (x y : Index) : Statement (.copy x y) :=
  of_xy .copy x y 0x8 0x0 14 (by decide) (by decide) (by decide) rfl rfl

theorem or (x y : Index) : Statement (.or x y) :=
  of_xy .or x y 0x8 0x1 15 (by decide) (by decide) (by decide) rfl rfl

theorem and (x y : Index) : Statement (.and x y) :=
  of_xy .and x y 0x8 0x2 16 (by decide) (by decide) (by decide) rfl rfl

theorem xor (x y : Index) : Statement (.xor x y) :=
  of_xy .xor x y 0x8 0x3 17 (by decide) (by decide) (by decide) rfl rfl

theorem add (x y : Index) : Statement (.add x y) :=
  of_xy .add x y 0x8 0x4 18 (by decide) (by decide) (by decide) rfl rfl

theorem subXY (x y : Index) : Statement (.subXY x y) :=
  of_xy .subXY x y 0x8 0x5 19 (by decide) (by decide) (by decide) rfl rfl

theorem shiftRight (x : Index) : Statement (.shiftRight x) :=
  of_xy_ignored .shiftRight x 0x8 0x6 20 (by decide) (by decide) (by decide) rfl rfl

theorem subYX (x y : Index) : Statement (.subYX x y) :=
  of_xy .subYX x y 0x8 0x7 21 (by decide) (by decide) (by decide) rfl rfl

theorem shiftLeft (x : Index) : Statement (.shiftLeft x) :=
  of_xy_ignored .shiftLeft x 0x8 0xE 22 (by decide) (by decide) (by decide) rfl rfl

theorem skipIfRegistersNotEqual (x y : Index) : Statement (.skipIfRegistersNotEqual x y) :=
  of_xy .skipIfRegistersNotEqual x y 0x9 0x0 23 (by decide) (by decide) (by decide) rfl rfl

theorem setIndex (addr : Word) : Statement (.setIndex addr) :=
  of_addr .setIndex addr 0xA 30 (by decide) (by decide) rfl rfl rfl

theorem jumpPlusV0 (addr : Word) : Statement (.jumpPlusV0 addr) :=
  of_addr .jumpPlusV0 addr 0xB 31 (by decide) (by decide) rfl rfl rfl

theorem random (x : Index) (kk : Byte) : Statement (.random x kk) :=
  of_xkk .random x kk 0xC 32 (by decide) (by decide) rfl rfl

theorem drawSprite (x y : Index) (n : Nat) : Statement (.drawSprite x y n) :=
  of_xyn .drawSprite x y n 0xD 33 (by decide) (by decide) rfl rfl rfl

theorem skipIfKeyPressed (x : Index) : Statement (.skipIfKeyPressed x) :=
  of_x .skipIfKeyPressed x 0xE 0x9E 2 (by decide) (by decide) (by decide) rfl rfl

theorem skipIfKeyNotPressed (x : Index) : Statement (.skipIfKeyNotPressed x) :=
  of_x .skipIfKeyNotPressed x 0xE 0xA1 3 (by decide) (by decide) (by decide) rfl rfl

theorem loadDelayIntoRegister (x : Index) : Statement (.loadDelayIntoRegister x) :=
  of_x .loadDelayIntoRegister x 0xF 0x07 4 (by decide) (by decide) (by decide) rfl rfl

theorem waitForKey (x : Index) : Statement (.waitForKey x) :=
  of_x .waitForKey x 0xF 0x0A 5 (by decide) (by decide) (by decide) rfl rfl

theorem setDelay (x : Index) : Statement (.setDelay x) :=
  of_x .setDelay x 0xF 0x15 6 (by decide) (by decide) (by decide) rfl rfl

theorem setSound (x : Index) : Statement (.setSound x) :=
  of_x .setSound x 0xF 0x18 7 (by decide) (by decide) (by decide) rfl rfl

theorem addToIndex (x : Index) : Statement (.addToIndex x) :=
  of_x .addToIndex x 0xF 0x1E 8 (by decide) (by decide) (by decide) rfl rfl

theorem spriteAddress (x : Index) : Statement (.spriteAddress x) :=
  of_x .spriteAddress x 0xF 0x29 9 (by decide) (by decide) (by decide) rfl rfl

theorem storeBCD (x : Index) : Statement (.storeBCD x) :=
  of_x .storeBCD x 0xF 0x33 10 (by decide) (by decide) (by decide) rfl rfl

theorem saveRegisters (x : Index) : Statement (.saveRegisters x) :=
  of_x .saveRegisters x 0xF 0x55 11 (by decide) (by decide) (by decide) rfl rfl

theorem loadRegisters (x : Index) : Statement (.loadRegisters x) :=
  of_x .loadRegisters x 0xF 0x65 12 (by decide) (by decide) (by decide) rfl rfl

end Sys2Proof.Laws.EncodedRow
end

