-- ==== Sys2Proof/Tests/Slice0.lean ====
section
/-! SUPPORT. The model's own tests. Expected results come from the spec: the patterns of R93, the worked vectors of
spec/95_test_vectors.md (named in brackets) and the examples of the instruction rules. The last part shows, for each statement with
hypotheses, a concrete state and operands that meet them, at the boundary values of its clauses. -/

open Sys2Proof Sys2Proof.Machine Sys2Proof.Safety

namespace Sys2Proof.Tests

/-! ## Helpers -/

/-- The fresh state with some registers set. -/
def regs (rs : List (Index × Byte)) : State := rs.foldl (fun s r => s.setReg r.1 r.2) State.reset

/-- One step with a word at pc. -/
def stepped (w : Word) (s : State) : Option State := nextState? (step (s.placeWord w))

/-- The status of that step. -/
def status (w : Word) (s : State) : Status := stepStatus (s.placeWord w)

/-- The fresh state with a key pressed for each of the given indices. -/
def keys (ks : List Index) (s : State) : State :=
  s.setKeys (ks.foldl (fun v k => v.set k.val true k.isLt) (Vector.replicate 16 false))

/-- `V[0]` to `V[15]` hold 0x10 to 0x1F. -/
def rampRegs : State := { State.reset with V := Vector.ofFn (fun k : Fin 16 => BitVec.ofNat 8 (0x10 + k.val)) }

/-- The set pixels of a frame, in index order. -/
def lit (fb : Frame) : List Nat := (List.range 2048).filter (fun p => pixel fb p)

/-- A frame with the given pixels set. -/
def frame (ps : List Nat) : Frame := ps.foldl (fun fb p => fb ||| BitVec.twoPow 2048 p) 0

/-- What a drawing leaves: the set pixels, VF and the redraw flag. -/
def drawing (t : State) : List Nat × Byte × Bool := (lit t.fb, t.reg VF, t.redraw)

/-! ## Well-formedness: an ill-formed term for each check -/

theorem test_wf_refuses_jump_beyond_12_bits : (Instr.jump 0x1000).wf = false := by decide
theorem test_wf_refuses_call_beyond_12_bits : (Instr.call 0x1000).wf = false := by decide
theorem test_wf_refuses_setIndex_beyond_12_bits : (Instr.setIndex 0xFFFF).wf = false := by decide
theorem test_wf_refuses_jumpPlusV0_beyond_12_bits : (Instr.jumpPlusV0 0x8000).wf = false := by decide
theorem test_wf_refuses_sprite_of_16_rows : (Instr.drawSprite 0 0 16).wf = false := by decide
theorem test_wf_takes_the_largest_operands :
    (Instr.jump 0xFFF).wf = true ∧ (Instr.drawSprite 15 15 15).wf = true := by decide

/-! ## Decoding: each pattern of R93 written out -/

theorem test_decode_clear : decodeBytes [0x00, 0xE0] = .ok (.clear, []) := by rfl
theorem test_decode_ret : decodeBytes [0x00, 0xEE] = .ok (.ret, []) := by rfl
theorem test_decode_jump : decodeBytes [0x1A, 0xBD] = .ok (.jump 0xABD, []) := by rfl
theorem test_decode_call : decodeBytes [0x2F, 0xFE] = .ok (.call 0xFFE, []) := by rfl
theorem test_decode_skipIfEqualImmediate : decodeBytes [0x3A, 0x42] = .ok (.skipIfEqualImmediate 0xA 0x42, []) := by rfl
theorem test_decode_skipIfNotEqualImmediate :
    decodeBytes [0x4A, 0x07] = .ok (.skipIfNotEqualImmediate 0xA 0x07, []) := by rfl
theorem test_decode_skipIfRegistersEqual : decodeBytes [0x5A, 0xB0] = .ok (.skipIfRegistersEqual 0xA 0xB, []) := by rfl
theorem test_decode_loadImmediate : decodeBytes [0x6A, 0x2C] = .ok (.loadImmediate 0xA 0x2C, []) := by rfl
theorem test_decode_addImmediate : decodeBytes [0x71, 0xFF] = .ok (.addImmediate 1 0xFF, []) := by rfl
theorem test_decode_copy : decodeBytes [0x8E, 0xF0] = .ok (.copy 0xE 0xF, []) := by rfl
theorem test_decode_or : decodeBytes [0x81, 0x21] = .ok (.or 1 2, []) := by rfl
theorem test_decode_and : decodeBytes [0x81, 0x22] = .ok (.and 1 2, []) := by rfl
theorem test_decode_xor : decodeBytes [0x81, 0x23] = .ok (.xor 1 2, []) := by rfl
theorem test_decode_add : decodeBytes [0x81, 0x24] = .ok (.add 1 2, []) := by rfl
theorem test_decode_subXY : decodeBytes [0x81, 0xF5] = .ok (.subXY 1 0xF, []) := by rfl
theorem test_decode_shiftRight : decodeBytes [0x81, 0x26] = .ok (.shiftRight 1, []) := by rfl
theorem test_decode_subYX : decodeBytes [0x8F, 0x17] = .ok (.subYX 0xF 1, []) := by rfl
theorem test_decode_shiftLeft : decodeBytes [0x81, 0x2E] = .ok (.shiftLeft 1, []) := by rfl
theorem test_decode_skipIfRegistersNotEqual :
    decodeBytes [0x9A, 0xB0] = .ok (.skipIfRegistersNotEqual 0xA 0xB, []) := by rfl
theorem test_decode_setIndex : decodeBytes [0xAF, 0xFF] = .ok (.setIndex 0xFFF, []) := by rfl
theorem test_decode_jumpPlusV0 : decodeBytes [0xB3, 0x00] = .ok (.jumpPlusV0 0x300, []) := by rfl
theorem test_decode_random : decodeBytes [0xC3, 0x0F] = .ok (.random 3 0x0F, []) := by rfl
theorem test_decode_drawSprite : decodeBytes [0xD1, 0x25] = .ok (.drawSprite 1 2 5, []) := by rfl
theorem test_decode_skipIfKeyPressed : decodeBytes [0xE3, 0x9E] = .ok (.skipIfKeyPressed 3, []) := by rfl
theorem test_decode_skipIfKeyNotPressed : decodeBytes [0xE3, 0xA1] = .ok (.skipIfKeyNotPressed 3, []) := by rfl
theorem test_decode_loadDelayIntoRegister : decodeBytes [0xF3, 0x07] = .ok (.loadDelayIntoRegister 3, []) := by rfl
theorem test_decode_waitForKey : decodeBytes [0xF3, 0x0A] = .ok (.waitForKey 3, []) := by rfl
theorem test_decode_setDelay : decodeBytes [0xF3, 0x15] = .ok (.setDelay 3, []) := by rfl
theorem test_decode_setSound : decodeBytes [0xF3, 0x18] = .ok (.setSound 3, []) := by rfl
theorem test_decode_addToIndex : decodeBytes [0xF1, 0x1E] = .ok (.addToIndex 1, []) := by rfl
theorem test_decode_spriteAddress : decodeBytes [0xF1, 0x29] = .ok (.spriteAddress 1, []) := by rfl
theorem test_decode_storeBCD : decodeBytes [0xF1, 0x33] = .ok (.storeBCD 1, []) := by rfl
theorem test_decode_saveRegisters : decodeBytes [0xF3, 0x55] = .ok (.saveRegisters 3, []) := by rfl
theorem test_decode_loadRegisters : decodeBytes [0xF2, 0x65] = .ok (.loadRegisters 2, []) := by rfl

/-- [ST1 to ST6] -/
theorem test_decode_refuses_unknown_words :
    decodeBytes [0x00, 0x00] = .error (.unknownOpcode 0x0000) ∧ decodeBytes [0x01, 0x23] = .error (.unknownOpcode 0x0123) ∧
    decodeBytes [0x5A, 0xB1] = .error (.unknownOpcode 0x5AB1) ∧ decodeBytes [0x81, 0x28] = .error (.unknownOpcode 0x8128) ∧
    decodeBytes [0x81, 0x2F] = .error (.unknownOpcode 0x812F) ∧ decodeBytes [0xE3, 0x9F] = .error (.unknownOpcode 0xE39F) :=
  ⟨rfl, rfl, rfl, rfl, rfl, rfl⟩

theorem test_decode_refuses_a_lone_byte : decodeBytes [0x12] = .error (.truncated 1) := by rfl

/-- R106's example, `Add(0x1, 0x2)`. -/
theorem test_encode_add : encodeBytes (.add 1 2) = [0x81, 0x24] := by decide

theorem test_decodeTableWord_reads_bit_0_as_the_low_bit : decodeTableWord 16 0xD125 = some (.drawSprite 1 2 5) := by rfl

/-! ## Steps -/

/-- [ST1] -/
theorem test_step_unknown_only_advances :
    step State.reset = .next { State.reset with pc := 0x202 } ∧
      stepStatus State.reset = .error (.unknownOpcode 0x0000) := ⟨rfl, rfl⟩

/-- [ST7]: an instruction word that wraps at the top of memory. -/
theorem test_fetch_wraps :
    (nextState? (step (({ State.reset with pc := 0x0FFF } : State).writeBytes 0xFFF [0x60]))).map (fun t => (t.reg 0, t.pc)) =
      some (0xF0, 0x1001) := by decide

/-- [CF1] -/
theorem test_clear_blanks :
    (stepped 0x00E0 { State.reset with fb := frame [0, 2047] }).map (fun t => (t.fb == 0, t.redraw, t.pc)) =
      some (true, true, 0x202) := by decide +kernel

/-- [CF2] -/
theorem test_return_pops :
    (stepped 0x00EE { State.reset with sp := 2, stack := (State.reset.stack.set 0 0x0206).set 1 0x0ABC }).map
      (fun t => (t.sp, t.pc)) = some (1, 0x0ABC) := by decide

/-- [CF3] -/
theorem test_return_underflow :
    stepped 0x00EE State.reset = some { State.reset.placeWord 0x00EE with pc := 0x202 } ∧
      status 0x00EE State.reset = .error .stackUnderflow := ⟨rfl, rfl⟩

/-- [CF4] -/
theorem test_jump_odd_target : (stepped 0x1ABD State.reset).map (·.pc) = some 0x0ABD := by decide

/-- [CF5] -/
theorem test_call_sixteenth :
    (stepped 0x2FFE { State.reset with sp := 15 }).map (fun t => (t.stack[15], t.sp, t.pc)) = some (0x0202, 16, 0x0FFE) := by
  decide

/-- [CF6] -/
theorem test_call_overflow :
    stepped 0x2FFE { State.reset with sp := 16 } =
        some { ({ State.reset with sp := 16 } : State).placeWord 0x2FFE with pc := 0x202 } ∧
      status 0x2FFE { State.reset with sp := 16 } = .error .stackOverflow := ⟨rfl, rfl⟩

/-- [SK1, SK2] -/
theorem test_skipIfEqualImmediate :
    (stepped 0x3A42 (regs [(0xA, 0x42)])).map (·.pc) = some 0x204 ∧
      (stepped 0x3A42 (regs [(0xA, 0x43)])).map (·.pc) = some 0x202 := by decide

/-- [SK3, SK4] -/
theorem test_skipIfNotEqualImmediate :
    (stepped 0x4A42 (regs [(0xA, 0x42)])).map (·.pc) = some 0x202 ∧
      (stepped 0x4A42 (regs [(0xA, 0x43)])).map (·.pc) = some 0x204 := by decide

/-- [SK5, SK6] -/
theorem test_skipIfRegistersEqual :
    (stepped 0x5AB0 (regs [(0xA, 1), (0xB, 1)])).map (·.pc) = some 0x204 ∧
      (stepped 0x5AB0 (regs [(0xA, 1), (0xB, 2)])).map (·.pc) = some 0x202 := by decide

/-- [SK8, SK9] -/
theorem test_skipIfRegistersNotEqual :
    (stepped 0x9AB0 (regs [(0xA, 1), (0xB, 1)])).map (·.pc) = some 0x202 ∧
      (stepped 0x9AB0 (regs [(0xA, 1), (0xB, 2)])).map (·.pc) = some 0x204 := by decide

/-- [SK11] -/
theorem test_skip_wraps_pc : (stepped 0x3000 { State.reset with pc := 0xFFFC }).map (·.pc) = some 0x0000 := by decide

/-- [AL1] -/
theorem test_loadImmediate_into_VF : (stepped 0x6FAB State.reset).map (·.reg VF) = some 0xAB := by decide

/-- [AL2] -/
theorem test_addImmediate_wraps_without_flag :
    (stepped 0x70FF (regs [(0, 1), (VF, 7)])).map (fun t => (t.reg 0, t.reg VF)) = some (0, 7) := by decide

/-- [AL5] -/
theorem test_copy_from_y : (stepped 0x8120 (regs [(1, 0x11), (2, 0x77)])).map (fun t => (t.reg 1, t.reg 2)) =
    some (0x77, 0x77) := by decide

/-- [AL6] -/
theorem test_or : (stepped 0x8121 (regs [(1, 0xA5), (2, 0x0F), (VF, 7)])).map (fun t => (t.reg 1, t.reg VF)) =
    some (0xAF, 7) := by decide

/-- [AL7] -/
theorem test_and : (stepped 0x8122 (regs [(1, 0xA5), (2, 0x0F), (VF, 7)])).map (fun t => (t.reg 1, t.reg VF)) =
    some (0x05, 7) := by decide

/-- [AL8] -/
theorem test_xor : (stepped 0x8123 (regs [(1, 0xA5), (2, 0x0F), (VF, 7)])).map (fun t => (t.reg 1, t.reg VF)) =
    some (0xAA, 7) := by decide

/-- [S2]: 250 + 10. -/
theorem test_add_wraps : (stepped 0x8014 (regs [(0, 250), (1, 10)])).map (fun t => (t.reg 0, t.reg VF)) =
    some (4, 1) := by decide

/-- [AL15, AL16]: VF as destination, and as the second operand. -/
theorem test_add_with_VF :
    (stepped 0x8FF4 (regs [(VF, 0x80)])).map (·.reg VF) = some 1 ∧
      (stepped 0x81F4 (regs [(1, 0xFF), (VF, 1)])).map (fun t => (t.reg 1, t.reg VF)) = some (0, 1) := by decide

/-- [S3]: 5 - 10. -/
theorem test_subXY_borrows : (stepped 0x8015 (regs [(0, 5), (1, 10)])).map (fun t => (t.reg 0, t.reg VF)) =
    some (251, 0) := by decide

/-- [AL19, AL22] -/
theorem test_subXY_equal_operands_and_VF :
    (stepped 0x8125 (regs [(1, 7), (2, 7)])).map (fun t => (t.reg 1, t.reg VF)) = some (0, 0) ∧
      (stepped 0x8F15 (regs [(VF, 9), (1, 3)])).map (·.reg VF) = some 1 := by decide

/-- [AL24] -/
theorem test_subYX_borrows : (stepped 0x8127 (regs [(1, 1), (2, 0)])).map (fun t => (t.reg 1, t.reg VF)) =
    some (0xFF, 0) := by decide

/-- [AL26] -/
theorem test_subYX_no_borrow : (stepped 0x8127 (regs [(1, 0x7F), (2, 0x80)])).map (fun t => (t.reg 1, t.reg VF)) =
    some (1, 1) := by decide

/-- [AL28] -/
theorem test_shiftRight_ignores_y :
    (stepped 0x8126 (regs [(1, 0xFF), (2, 0x55)])).map (fun t => (t.reg 1, t.reg 2, t.reg VF)) = some (0x7F, 0x55, 1) := by
  decide

/-- [AL32]: VF = 02. -/
theorem test_shiftRight_of_VF : (stepped 0x8F06 (regs [(VF, 2)])).map (·.reg VF) = some 0 := by decide

/-- [AL33] -/
theorem test_shiftLeft_ignores_y :
    (stepped 0x812E (regs [(1, 0xFF), (2, 0x55)])).map (fun t => (t.reg 1, t.reg 2, t.reg VF)) = some (0xFE, 0x55, 1) := by
  decide

/-- [AL37]: VF = 7F. -/
theorem test_shiftLeft_of_VF : (stepped 0x8F0E (regs [(VF, 0x7F)])).map (·.reg VF) = some 0 := by decide

/-- [MI1] -/
theorem test_setIndex : (stepped 0xAFFF State.reset).map (·.I) = some 0x0FFF := by decide

/-- [CF8, CF9] -/
theorem test_jumpPlusV0 :
    (stepped 0xB300 (regs [(0, 4), (3, 9)])).map (·.pc) = some 0x0304 ∧
      (stepped 0xBFFF (regs [(0, 0xFF)])).map (·.pc) = some 0x10FE := by decide

/-- [RN3]: the mask 0 decides the result, whatever the draw. -/
theorem test_random_with_empty_mask : (stepped 0xC300 (regs [(3, 0x55)])).map (·.reg 3) = some 0 := by
  show some (Config.rnd 0 &&& 0) = some 0
  simp

/-- [DR1] -/
theorem test_draw_wraps_columns :
    (stepped 0xD011 ({ regs [(0, 60)] with I := 0x300 }.writeBytes 0x300 [0xFF])).map drawing =
      some ([0, 1, 2, 3, 60, 61, 62, 63], 0, true) := by decide +kernel

/-- [DR5], with the bottom row of [DR7]: a collision, and rows that wrap at 32. -/
theorem test_draw_collides_and_wraps_rows :
    (stepped 0xD011 ({ State.reset with I := 0x300, fb := frame [1, 2] }.writeBytes 0x300 [0xC0])).map drawing =
        some ([0, 2], 1, true) ∧
      (stepped 0xD013 ({ regs [(0, 8), (1, 31)] with I := 0x300 }.writeBytes 0x300 [0x80, 0x40, 0x20])).map drawing =
        some ([9, 74, 1992], 0, true) := by decide +kernel

/-- [TI4, TI6] -/
theorem test_skipIfKeyPressed :
    (stepped 0xE39E (keys [0xA] (regs [(3, 0x0A)]))).map (·.pc) = some 0x204 ∧
      (stepped 0xE39E (keys [0xA] (regs [(3, 0x1A)]))).map (·.pc) = some 0x204 := by decide

/-- [TI7] -/
theorem test_skipIfKeyNotPressed :
    (stepped 0xE3A1 (keys [0xA] (regs [(3, 0x0A)]))).map (·.pc) = some 0x202 ∧
      (stepped 0xE3A1 (regs [(3, 0x0A)])).map (·.pc) = some 0x204 := by decide

/-- [TI1] -/
theorem test_loadDelayIntoRegister :
    (stepped 0xF307 { State.reset with DT := 0x2A, ST := 0x11 }).map (fun t => (t.reg 3, t.DT)) = some (0x2A, 0x2A) := by
  decide

/-- [TI9]: the stall changes nothing. -/
theorem test_waitForKey_stalls :
    stepped 0xF30A (regs [(3, 0x55)]) = some ((regs [(3, 0x55)]).placeWord 0xF30A) ∧
      status 0xF30A (regs [(3, 0x55)]) = .ok := ⟨rfl, rfl⟩

/-- [TI11] -/
theorem test_waitForKey_takes_lowest :
    (stepped 0xF30A (keys [3, 9, 0xC] (regs [(3, 0x55)]))).map (fun t => (t.reg 3, t.pc)) = some (3, 0x202) := by decide

/-- [TI2] -/
theorem test_setDelay : (stepped 0xF315 { regs [(3, 0xFF)] with DT := 3 }).map (fun t => (t.DT, t.ST)) =
    some (0xFF, 0) := by decide

/-- [R202's example] -/
theorem test_setSound : (stepped 0xF218 (regs [(2, 0x1E)])).map (fun t => (t.ST, t.DT)) = some (0x1E, 0) := by decide

/-- [MI2, MI3] -/
theorem test_addToIndex :
    (stepped 0xF11E { regs [(1, 1), (VF, 5)] with I := 0x0FFF }).map (fun t => (t.I, t.reg VF)) = some (0x1000, 5) ∧
      (stepped 0xF11E { regs [(1, 2)] with I := 0xFFFF }).map (·.I) = some 0x0001 := by decide

/-- [MI5] -/
theorem test_spriteAddress :
    (stepped 0xF129 (regs [(1, 0x0F)])).map (·.I) = some 0x004B ∧
      (stepped 0xF129 (regs [(1, 0xFF)])).map (·.I) = some 0x04FB := by decide

/-- [MI7] -/
theorem test_storeBCD_wraps :
    (stepped 0xF133 { regs [(1, 157)] with I := 0x0FFE }).map
      (fun t => (t.readByte 0xFFE, t.readByte 0xFFF, t.readByte 0x000, t.I)) = some (1, 5, 7, 0x0FFE) := by decide

/-- [MI8] -/
theorem test_saveRegisters_stores_V0_only :
    (stepped 0xF055 { regs [(0, 0xAA), (1, 0xBB)] with I := 0x400 }).map
      (fun t => (t.readByte 0x400, t.readByte 0x401, t.I)) = some (0xAA, 0, 0x400) := by decide

/-- [MI10] -/
theorem test_saveRegisters_wraps :
    (stepped 0xF155 { regs [(0, 0xAA), (1, 0xBB)] with I := 0xFFFF }).map
      (fun t => (t.readByte 0xFFF, t.readByte 0x000)) = some (0xAA, 0xBB) := by decide

/-- [MI11] -/
theorem test_loadRegisters_stops_at_x :
    (stepped 0xF265 (regs [(3, 9)])).map (fun t => (t.reg 0, t.reg 1, t.reg 2, t.reg 3)) = some (0xF0, 0x90, 0x90, 9) := by
  decide

/-- [MI12] -/
theorem test_loadRegisters_all :
    (stepped 0xFF65 { State.reset with I := 5 }).map (fun t => (t.reg 0, t.reg 5, t.reg VF)) = some (0x20, 0xF0, 0x90) := by
  decide

/-! ## Host operations -/

/-- [TK1, TK2] -/
theorem test_tick_saturates :
    (tickTimers { State.reset with DT := 2 }).DT = 1 ∧ (tickTimers State.reset).DT = 0 ∧
      (tickTimers { State.reset with DT := 0xFF, ST := 1 }).ST = 0 := by decide

/-- [LR4] -/
theorem test_loadRom :
    (loadRom [0x60, 0x0A, 0x12] State.reset).1.readByte 0x202 = 0x12 ∧
      (loadRom [0x60, 0x0A, 0x12] State.reset).1.readByte 0x203 = 0 := by decide

/-- [RS1]: the last font byte and the first byte after the font. -/
theorem test_initialize_loads_the_font :
    (initializeCore defaultFont State.reset).readByte 0x04F = 0x80 ∧
      (initializeCore defaultFont State.reset).readByte 0x050 = 0 := by decide +kernel

/-- A font other than the default is listed in memory, in canonical form. -/
theorem test_initialize_with_a_blank_font :
    (initializeCore (Vector.replicate 80 0) State.reset).readByte 0x000 = 0 ∧
      (initializeCore (Vector.replicate 80 0) State.reset).mem.wf = true := by decide +kernel

/-! ## Witnesses: hypotheses of the statements, met -/

/-- A state that runs `Step` on a `Jump` to itself (R142, R247). -/
def idle : State := State.reset.placeWord 0x1200

/-- The last font byte, and the first and the last byte after the font. -/
theorem test_witness_InitializeSetsEveryItem :
    79 < 80 ∧ (80 ≤ 80 ∧ 80 < 4096) ∧ (80 ≤ 4095 ∧ 4095 < 4096) ∧ 2047 < 2048 := by decide

/-- Also for `HostRunKeepsInvariant`. -/
theorem test_witness_StepKeepsInvariant : Invariant State.reset ∧ ∃ t, step State.reset = .next t :=
  ⟨rfl, _, rfl⟩

theorem test_witness_DecodeOfEncodeGivesInstructionBack :
    (Instr.drawSprite 15 15 15).wf = true ∧ (Instr.call 0xFFF).wf = true ∧ Instr.ret.wf = true := by decide

theorem test_witness_DecodedInstructionEncodesBack :
    decodeWord 0x8FF6 = .ok (.shiftRight 15) ∧ decodeWord 0x8FFE = .ok (.shiftLeft 15) ∧
      decodeWord 0xDFFF = .ok (.drawSprite 15 15 15) := ⟨rfl, rfl, rfl⟩

theorem test_witness_OperandsAreUnsignedFields :
    decodeWord 0x1FFF = .ok (.jump 0xFFF) ∧ decodeWord 0x2FFF = .ok (.call 0xFFF) ∧ State.reset.sp.val < 16 ∧
      decodeWord 0xCFFF = .ok (.random 15 0xFF) ∧ decodeWord 0x9FF0 = .ok (.skipIfRegistersNotEqual 15 15) ∧
      decodeWord 0xFF65 = .ok (.loadRegisters 15) := ⟨rfl, rfl, by decide, rfl, rfl, rfl⟩

theorem test_witness_StepRunsDecodedInstruction :
    decodeBytes [idle.readByte idle.pc.toNat, idle.readByte (idle.pc.toNat + 1)] = .ok (.jump 0x200, []) := by rfl

theorem test_witness_UnknownOpcodeOnlyAdvancesPc :
    ∀ r ∈ opcodeRows, State.reset.fetchWord &&& r.mask ≠ r.pattern := by decide

/-- Each of the three errors of a `Step` arises. -/
theorem test_witness_FailedStepChangesOnlyPc :
    stepStatus State.reset = .error (.unknownOpcode 0x0000) ∧
      status 0x00EE State.reset = .error .stackUnderflow ∧
      status 0x2200 { State.reset with sp := 16 } = .error .stackOverflow := by decide

theorem test_witness_PcAfterEachOperation :
    decodeWord idle.fetchWord = .ok (.jump 0x200) ∧ ∃ t, step idle = .next t := ⟨rfl, _, rfl⟩

/-- Each item of the state is changed by an instruction that may change it. -/
theorem test_witness_StateChangesOnlyByItsWriters :
    (∃ t, exec (.storeBCD 0) { State.reset with I := 0x300, V := State.reset.V.set 0 1 } = .next t ∧ t.mem ≠ []) ∧
    (∃ t, exec (.setIndex 5) State.reset = .next t ∧ t.I ≠ State.reset.I) ∧
    (∃ t, exec (.call 5) State.reset = .next t ∧ t.stack ≠ State.reset.stack ∧ t.sp ≠ State.reset.sp) ∧
    (∃ t, exec (.drawSprite 0 0 5) State.reset = .next t ∧ t.fb ≠ State.reset.fb ∧ t.redraw ≠ State.reset.redraw) ∧
    (∃ t, exec (.setDelay 0) (regs [(0, 1)]) = .next t ∧ t.DT ≠ (regs [(0, 1)]).DT) ∧
    (∃ t, exec (.setSound 0) (regs [(0, 1)]) = .next t ∧ t.ST ≠ (regs [(0, 1)]).ST) ∧
    (∃ t, exec (.random 0 0) State.reset = .next t ∧ t.draws ≠ State.reset.draws) ∧
    (∃ t, exec (.loadImmediate 15 1) State.reset = .next t ∧ t.V ≠ State.reset.V) ∧
    ∃ t, exec (.jump 0xFFF) State.reset = .next t ∧ t.pc ≠ State.reset.pc :=
  ⟨⟨_, rfl, by decide⟩, ⟨_, rfl, by decide⟩, ⟨_, rfl, by decide⟩, ⟨_, rfl, by decide +kernel⟩,
    ⟨_, rfl, by decide⟩, ⟨_, rfl, by decide⟩, ⟨_, rfl, Nat.one_ne_zero⟩, ⟨_, rfl, by decide⟩, ⟨_, rfl, by decide⟩⟩

theorem test_witness_RegistersChangeOnlyWhereNamed :
    ∃ t, exec (.loadRegisters 1) State.reset = .next t ∧ t.reg 1 ≠ State.reset.reg 1 ∧ t.reg 2 = State.reset.reg 2 :=
  ⟨_, rfl, by decide⟩

/-- For `OnlyKeyOperationsReadTheKeypad`, `TimersAreReadAndWrittenByTheirOwnOperations`, `RedrawIsSetByDrawingAndNeverRead` (with
the flag set before, by an instruction that draws and by one that does not) and `ExportShowsThePixelsInIndexOrder`. -/
theorem test_witness_an_instruction_runs :
    (∃ t, exec .clear { State.reset with redraw := true } = .next t) ∧
      (∃ t, exec (.copy 1 0) { State.reset with redraw := true } = .next t) ∧ (∃ t, exec (.setDelay 1) State.reset = .next t) ∧
      (∃ t, exec (.waitForKey 1) State.reset = .next t) ∧ ∃ t, exec (.copy 0 1) State.reset = .next t :=
  ⟨⟨_, rfl⟩, ⟨_, rfl⟩, ⟨_, rfl⟩, ⟨_, rfl⟩, ⟨_, rfl⟩⟩

/-- Two states that differ above `sp` = 1, at a `Return`. -/
theorem test_witness_FreeStackSlotsAreUnobservable :
    (∀ j : Fin 16, j.val < ({ State.reset with sp := 1 } : State).sp.val →
      (State.reset.stack.set 1 0x0ABC)[j] = State.reset.stack[j]) ∧
    ∃ t, step ({ State.reset with sp := 1 } : State) = .next t := ⟨by decide, _, rfl⟩

theorem test_witness_JumpsLoadPc : wfAddr 0xFFF = true ∧ wfAddr 0x000 = true := by decide

/-- Depths 15 and 16. -/
theorem test_witness_CallPushesTheReturnAddress :
    ({ State.reset with sp := 15 } : State).sp.val < 16 ∧ ({ State.reset with sp := 16 } : State).sp.val = 16 := by decide

/-- Depths 1, 16 and 0. -/
theorem test_witness_ReturnPopsTheReturnAddress :
    ({ State.reset with sp := 1 } : State).sp.val = (0 : Fin 16).val + 1 ∧
      ({ State.reset with sp := 16 } : State).sp.val = (15 : Fin 16).val + 1 ∧ State.reset.sp.val = 0 := by decide

/-- Sixteen calls from an empty stack. -/
theorem test_witness_NestedCallsHoldEveryReturnAddress :
    State.reset.sp.val + (List.replicate 16 (0x204 : Word)).length ≤ 16 ∧ 15 < (List.replicate 16 (0x204 : Word)).length ∧
      State.reset.sp.val + 15 < 16 := by decide

theorem test_witness_ReturnUndoesCall :
    ({ State.reset with sp := 15 } : State).sp.val < 16 ∧
      ∃ t, exec (.call 0x300) { State.reset with sp := 15 } = .next t := ⟨by decide, _, rfl⟩

/-- Key F named by 0xFF, key 0 by 0x10. -/
theorem test_witness_SkipsAdvancePcByTwoMore :
    (15 : Fin 16).val = ((regs [(3, 0xFF)]).V[(3 : Index)]).toNat % 16 ∧
      (0 : Fin 16).val = ((regs [(3, 0x10)]).V[(3 : Index)]).toNat % 16 := by decide

theorem test_witness_FlagArithmeticResults :
    255 = ((regs [(VF, 0xFF)]).V[VF]).toNat ∧ 1 = ((regs [(1, 1)]).V[(1 : Index)]).toNat := by decide

/-- The byte after the digits, and the one before them, with the digits wrapping at the top of memory. -/
theorem test_witness_StoreBCDWritesThreeDigits :
    ∀ a ∈ [0x0001, 0x0FFD], ∀ k < 3, physical a ≠ physical (({ State.reset with I := 0x0FFE } : State).dataAddr k) := by decide

theorem test_witness_SaveRegistersStoresUpToX :
    (15 : Fin 16) ≤ (15 : Index) ∧ (0 : Fin 16) ≤ (0 : Index) ∧
      ∀ k : Fin 16, physical 0x410 ≠ physical (({ State.reset with I := 0x400 } : State).dataAddr k.val) := by decide

theorem test_witness_SaveThenLoadGivesRegistersBack :
    ∃ t u, exec (.saveRegisters 3) rampRegs = .next t ∧
      exec (.loadRegisters 3) { t with V := Vector.replicate 16 0, pc := t.pc + 2 } = .next u := ⟨_, _, rfl, rfl⟩

/-- V0 and V1 over the word at pc, and VE and VF over it, with `I` below pc. -/
theorem test_witness_SavedRegistersAreFetchedNext :
    ((0 : Fin 16).val + 1 ≤ (1 : Fin 16).val ∧ physical (({ State.reset with I := 0x200 } : State).pc.toNat) =
        physical (({ State.reset with I := 0x200 } : State).dataAddr 0) ∧
      ∃ t, exec (.saveRegisters 1) { State.reset with I := 0x200 } = .next t) ∧
    ((14 : Fin 16).val + 1 ≤ (15 : Fin 16).val ∧ physical (({ State.reset with I := 0x1F2 } : State).pc.toNat) =
        physical (({ State.reset with I := 0x1F2 } : State).dataAddr 14) ∧
      ∃ t, exec (.saveRegisters 15) { State.reset with I := 0x1F2 } = .next t) :=
  ⟨⟨by decide, by decide, _, rfl⟩, ⟨by decide, by decide, _, rfl⟩⟩

/-- A `StoreBCD` at 0x200 whose last digit falls on the high byte of the next word alone, and a `SaveRegisters(1)` that overwrites
its own two bytes. -/
theorem test_witness_StoredBytesAreSeenByTheNextFetch :
    (decodeWord (({ regs [(1, 157)] with I := 0x200 } : State).placeWord 0xF133).fetchWord = .ok (.storeBCD 1) ∧
      (stepped 0xF133 { regs [(1, 157)] with I := 0x200 }).map (·.fetchWord) = some 0x0700 ∧
      byteAfterStore { regs [(1, 157)] with I := 0x200 } [1, 5, 7] 0x202 = 7 ∧
      byteAfterStore { regs [(1, 157)] with I := 0x200 } [1, 5, 7] 0x203 = 0) ∧
    (decodeWord (({ regs [(0, 0x6A), (1, 0x55)] with I := 0x200 } : State).placeWord 0xF155).fetchWord =
        .ok (.saveRegisters 1) ∧
      (stepped 0xF155 { regs [(0, 0x6A), (1, 0x55)] with I := 0x200 }).map
        (fun t => ({ t with pc := 0x200 } : State).fetchWord) = some 0x6A55) :=
  ⟨⟨rfl, by decide, by decide, by decide⟩, ⟨rfl, by decide⟩⟩

theorem test_witness_AddressesWrapAt4096 : (0x1FFF : Word).toNat % 4096 = 4095 := by decide

/-- The tallest sprite and the empty one, and a sprite bit that falls on the last pixel of the screen. Also for
`FlagAfterEachDefiningOperation`. -/
theorem test_witness_DrawSpriteXorsTheSpriteIn :
    15 < 16 ∧ 0 < 16 ∧ 63 < 64 ∧ 31 < 32 ∧ spriteLights (regs [(0, 60), (1, 31)]) 0 1 15 63 31 = true ∧
      spriteLights (regs [(0, 60), (1, 31)]) 0 1 0 63 31 = false := by decide

/-- A first drawing without a collision, with `x` and `y` other than F. -/
theorem test_witness_DrawingTwiceRestoresTheScreen :
    (0 : Index) ≠ VF ∧ (1 : Index) ≠ VF ∧
      (∃ t u, exec (.drawSprite 0 1 15) (regs [(0, 60), (1, 31)]) = .next t ∧ t.reg VF = 0 ∧
        exec (.drawSprite 0 1 15) t.advancePc = .next u ∧ u.reg VF = 1) :=
  ⟨by decide, by decide, _, _, rfl, by decide +kernel, rfl, by decide +kernel⟩

/-- The highest key alone, and none. -/
theorem test_witness_WaitForKeyTakesTheLeastPressedKey :
    ((keys [15] State.reset).key[(15 : Fin 16)] = true ∧
      ∀ j : Fin 16, j < 15 → (keys [15] State.reset).key[j] = false) ∧
    ∀ k : Fin 16, State.reset.key[k] = false := by decide

theorem test_witness_WaitForKeyStallChangesNothing :
    decodeWord (State.reset.placeWord 0xFF0A).fetchWord = .ok (.waitForKey 15) ∧
      ∀ k : Fin 16, (State.reset.placeWord 0xFF0A).key[k] = false := ⟨rfl, by decide⟩

theorem test_witness_RandomMasksTheDraw :
    7 < 8 ∧ (0x7F : Byte).getLsbD 7 = false ∧ 0 < 8 ∧ (0xFE : Byte).getLsbD 0 = false := by decide

/-- [LR1, LR2]: the longest ROM that is taken, and the shortest that is refused. -/
theorem test_witness_LoadRomCopiesOrRefusesWhole :
    (List.replicate 3584 (0xAB : Byte)).length ≤ 3584 ∧ 3584 < (List.replicate 3585 (0xAB : Byte)).length ∧
      3583 < (List.replicate 3584 (0xAB : Byte)).length ∧ 0x1FF < 0x200 ∧ 0x200 + 3 ≤ 0x203 := by
  simp only [List.length_replicate]; decide

theorem test_witness_BootFetchesTheFirstRomWord :
    Booted defaultFont [0x12, 0x00] (loadRom [0x12, 0x00] (initializeCore defaultFont State.reset)).1 :=
  ⟨State.reset, rfl⟩

theorem test_witness_RedrawStaysUntilTheHostClearsIt :
    ∃ t, hostOp defaultFont .step { idle with redraw := true } = .next t ∧ t.redraw = true := ⟨_, rfl, rfl⟩

theorem test_witness_HostOperationsTouchOnlyTheirOwnState :
    ∃ t, hostOp defaultFont (.loadRom [0x12, 0x00]) State.reset = .next t := ⟨_, rfl⟩

theorem test_witness_JumpToItselfIsAFixedPoint : endOfRun idle = true := by decide

theorem test_witness_StrictStepStopsExactlyAtErrors :
    (∃ t, strictStep idle = .next t) ∧ strictStep State.reset = .fault (.unknownOpcode 0x0000) :=
  ⟨⟨_, rfl⟩, rfl⟩

theorem test_witness_PlacedWordIsTheNextInstruction :
    decodeTableWord 16 0x00E0 = some .clear ∧ decodeTableWord 16 0xFF65 = some (.loadRegisters 15) := ⟨rfl, rfl⟩

end Sys2Proof.Tests
end

section
/-! SUPPORT. The redraw flag (R35). That no instruction reads it is said once: the two that paint the screen answer
the same whatever the flag is, and every other instruction commutes with a write of the flag. That it is unchanged by those
others follows. -/

namespace Sys2Proof.Machine

/-- The two instructions that paint the screen, and so write the redraw flag (R35). -/
def Paints (i : Instr) : Prop := i = .clear ∨ ∃ x y n, i = .drawSprite x y n

/-! ## A write of the flag commutes with the operations that branch -/

theorem State.skipIf_setRedraw (s : State) (b c : Bool) : (s.setRedraw b).skipIf c = (s.skipIf c).setRedraw b := by
  cases c <;> rfl

theorem returnResult_setRedraw (s : State) (b : Bool) :
    (returnResult (s.setRedraw b)).1 = (returnResult s).1.setRedraw b := by
  by_cases h : 0 < s.sp.val <;> simp only [returnResult, State.setRedraw_sp, h, ↓reduceDIte] <;> rfl

theorem callResult_setRedraw (addr : Word) (s : State) (b : Bool) :
    (callResult addr (s.setRedraw b)).1 = (callResult addr s).1.setRedraw b := by
  by_cases h : s.sp.val < 16 <;> simp only [callResult, State.setRedraw_sp, h, ↓reduceDIte] <;> rfl

theorem execWaitForKey_setRedraw {x : Index} {s t : State} (h : execWaitForKey x s = .next t) (b : Bool) :
    execWaitForKey x (s.setRedraw b) = .next (t.setRedraw b) := by
  have hkey : (s.setRedraw b).lowestPressed = s.lowestPressed := rfl
  simp only [execWaitForKey, hkey] at h ⊢
  cases hk : s.lowestPressed <;> rw [hk] at h <;> cases h <;> rfl

/-! ## What an instruction does with the flag -/

/-- An instruction that paints does not read the flag, which it overwrites. -/
theorem exec_setRedraw_of_paints {i : Instr} (hi : Paints i) (s : State) (b : Bool) :
    exec i (s.setRedraw b) = exec i s := by
  obtain rfl | ⟨x, y, n, rfl⟩ := hi
  · rfl
  · rfl

theorem redraw_of_paints {i : Instr} {s t : State} (hi : Paints i) (h : exec i s = .next t) : t.redraw = true := by
  obtain rfl | ⟨x, y, n, rfl⟩ := hi
  · cases h; rfl
  · cases h; rfl

/-- An instruction that does not paint neither reads the flag nor writes it. -/
theorem exec_setRedraw_of_not_paints {i : Instr} {s t : State} (hi : ¬ Paints i) (h : exec i s = .next t) (b : Bool) :
    exec i (s.setRedraw b) = .next (t.setRedraw b) := by
  cases i
  case clear => exact absurd (.inl rfl) hi
  case drawSprite x y n => exact absurd (.inr ⟨x, y, n, rfl⟩) hi
  case ret => cases h; exact congrArg _ (returnResult_setRedraw s b)
  case call addr => cases h; exact congrArg _ (callResult_setRedraw addr s b)
  case waitForKey x => exact execWaitForKey_setRedraw h b
  case skipIfEqualImmediate | skipIfNotEqualImmediate | skipIfRegistersEqual | skipIfRegistersNotEqual | skipIfKeyPressed |
      skipIfKeyNotPressed =>
    cases h; exact congrArg _ (s.skipIf_setRedraw b _)
  all_goals cases h; rfl

/-- Writing the flag's own value is no change, so the flag of the answer is the flag before. -/
theorem redraw_of_not_paints {i : Instr} {s t : State} (hi : ¬ Paints i) (h : exec i s = .next t) : t.redraw = s.redraw := by
  have hsame : exec i s = .next (t.setRedraw s.redraw) := exec_setRedraw_of_not_paints hi h s.redraw
  have ht : t = t.setRedraw s.redraw := Host.Outcome.next.inj (h.symm.trans hsame)
  rw [ht, State.setRedraw_redraw]

/-- Settles O24, by whether the instruction paints the screen. -/
theorem redrawIsSetByDrawingAndNeverRead : Obligations.RedrawIsSetByDrawingAndNeverRead := by
  intro i s t b h
  refine ⟨fun hs => ?_, fun hi => ⟨redraw_of_paints hi h, (exec_setRedraw_of_paints hi s b).trans h⟩,
    fun hi => ⟨redraw_of_not_paints hi h, exec_setRedraw_of_not_paints hi h b⟩, State.setRedraw_redraw t false⟩
  by_cases hi : Paints i
  · exact redraw_of_paints hi h
  · exact (redraw_of_not_paints hi h).trans hs

end Sys2Proof.Machine
end

section
/-! SUPPORT. The fields of a word put together from two bytes (R62): which byte each of them is read from. -/

namespace Sys2Proof

theorem toNat_wordOfBytes (hi lo : Byte) : (wordOfBytes hi lo).toNat = hi.toNat * 256 + lo.toNat := by
  have := hi.isLt; have := lo.isLt
  rw [wordOfBytes, BitVec.toNat_ofNat]; omega

theorem wordOfBytes_eq_append (hi lo : Byte) : wordOfBytes hi lo = hi ++ lo := by
  apply BitVec.eq_of_toNat_eq
  rw [toNat_wordOfBytes, BitVec.toNat_append, ← Nat.shiftLeft_add_eq_or_of_lt lo.isLt, Nat.shiftLeft_eq]

/-! The byte at the lower address holds the operation nibble and `x`. -/

theorem opNibble_wordOfBytes (hi lo : Byte) : (wordOfBytes hi lo).toNat / 4096 = hi.toNat / 16 := by
  have := lo.isLt
  rw [toNat_wordOfBytes]; omega

theorem fieldX_wordOfBytes (hi lo : Byte) : (fieldX (wordOfBytes hi lo)).val = hi.toNat % 16 := by
  have := lo.isLt
  rw [val_fieldX, toNat_wordOfBytes]; omega

/-! The byte at the higher address is `kk`, and holds `y` and `n`. -/

theorem fieldKK_wordOfBytes (hi lo : Byte) : fieldKK (wordOfBytes hi lo) = lo :=
  loByte_wordOfBytes hi lo

theorem fieldY_wordOfBytes (hi lo : Byte) : (fieldY (wordOfBytes hi lo)).val = lo.toNat / 16 := by
  have := lo.isLt
  rw [val_fieldY, toNat_wordOfBytes]; omega

theorem fieldN_wordOfBytes (hi lo : Byte) : fieldN (wordOfBytes hi lo) = lo.toNat % 16 := by
  rw [fieldN, toNat_wordOfBytes]; omega

end Sys2Proof

namespace Sys2Proof.Machine

/-- Settles O12: the fetched word is `wordOfBytes` of the two bytes at pc, and each field lies in one of them. -/
theorem fetchIsBigEndian : Obligations.FetchIsBigEndian := fun _ =>
  ⟨wordOfBytes_eq_append _ _, opNibble_wordOfBytes _ _, fieldX_wordOfBytes _ _, fieldKK_wordOfBytes _ _,
    fieldY_wordOfBytes _ _, fieldN_wordOfBytes _ _⟩

end Sys2Proof.Machine
end

section
/-! SUPPORT. The operand fields as slices of the word (R92), and what the four operations with an address write (R142 to R144,
R180). -/

namespace Sys2Proof

/-! ## Fields are slices -/

theorem fieldX_eq_slice (w : Word) : (fieldX w).val = (w.extractLsb' 8 4).toNat := by
  rw [val_fieldX, BitVec.extractLsb'_toNat, Nat.shiftRight_eq_div_pow]

theorem fieldY_eq_slice (w : Word) : (fieldY w).val = (w.extractLsb' 4 4).toNat := by
  rw [val_fieldY, BitVec.extractLsb'_toNat, Nat.shiftRight_eq_div_pow]

theorem fieldN_eq_slice (w : Word) : fieldN w = (w.extractLsb' 0 4).toNat := by
  rw [fieldN, BitVec.extractLsb'_toNat, Nat.shiftRight_zero]

theorem fieldKK_eq_slice (w : Word) : fieldKK w = w.extractLsb' 0 8 := by
  apply BitVec.eq_of_toNat_eq
  rw [toNat_fieldKK, BitVec.extractLsb'_toNat, Nat.shiftRight_zero]

theorem fieldAddr_eq_slice (w : Word) : fieldAddr w = (w.extractLsb' 0 12).setWidth 16 := by
  apply BitVec.eq_of_toNat_eq
  rw [toNat_fieldAddr, BitVec.toNat_setWidth, BitVec.extractLsb'_toNat, Nat.shiftRight_zero]
  omega

end Sys2Proof

namespace Sys2Proof.Machine

/-! ## What the operations with an address write -/

theorem exec_jump (addr : Word) (s : State) : exec (.jump addr) s = .next { s with pc := addr } := rfl

theorem exec_setIndex (addr : Word) (s : State) : exec (.setIndex addr) s = .next { s with I := addr } := rfl

theorem exec_jumpPlusV0 (addr : Word) (s : State) :
    exec (.jumpPlusV0 addr) s = .next { s with pc := addr + (s.reg 0).setWidth 16 } := rfl

theorem exec_call_of_lt (addr : Word) {s : State} (h : s.sp.val < 16) :
    exec (.call addr) s = .next ((s.push s.pc h).setPc addr) := by
  change Host.Outcome.next (callResult addr s).1 = _
  rw [callResult, dif_pos h]; rfl

/-! ## The obligation -/

/-- Settles O11: the instruction is what some row's form reads from the word, and every form reads its operands by the fields
of R92. -/
theorem operandsAreUnsignedFields : Obligations.OperandsAreUnsignedFields := by
  intro w i h
  obtain ⟨r, hr, -, rfl⟩ := decodeWord_ok h
  have hx := fieldX_eq_slice w
  have hxy := And.intro hx (fieldY_eq_slice w)
  have hxkk := And.intro hx (fieldKK_eq_slice w)
  have haddr := fieldAddr_eq_slice w
  simp only [opcodeRows, List.mem_append, or_assoc] at hr
  obtain hfixed | hformX | hformXY | hnibble := hr
  · fin_cases hfixed <;> trivial
  · fin_cases hformX <;> exact hx
  · fin_cases hformXY
    -- the `y` of the two shifts, at places 7 and 9, is no operand (R96)
    iterate 7 exact hxy
    · exact hx
    · exact hxy
    · exact hx
    · exact hxy
  · fin_cases hnibble
    · exact ⟨haddr, fun s => haddr ▸ exec_jump _ s⟩
    · exact ⟨haddr, fun s hs => ⟨_, exec_call_of_lt _ hs, haddr⟩⟩
    iterate 4 exact hxkk
    · exact ⟨haddr, fun s => haddr ▸ exec_setIndex _ s⟩
    · exact ⟨haddr, fun s => haddr ▸ exec_jumpPlusV0 _ s⟩
    · exact hxkk
    · exact ⟨hx, fieldY_eq_slice w, fieldN_eq_slice w⟩

end Sys2Proof.Machine
end

section
/-! SUPPORT. The host's operations on the redraw flag (R241). The core keeps a set flag through every instruction, hence through
every `Step`; of the host's other operations, only `Initialize` and the redraw clear write the flag at all. -/

namespace Sys2Proof.Machine

theorem clearRedraw_eq (s : State) : clearRedraw s = { s with redraw := false } := rfl

@[simp] theorem tickTimers_redraw (s : State) : (tickTimers s).redraw = s.redraw := rfl

/-- Copied or refused, a ROM leaves the flag alone. -/
@[simp] theorem loadRom_redraw (bytes : List Byte) (s : State) : (loadRom bytes s).1.redraw = s.redraw := by
  rcases Nat.lt_or_ge 3584 bytes.length with hgt | hle
  · rw [loadRom_of_gt hgt]
  · rw [loadRom_of_le hle, State.writeBytes_redraw]

/-- No instruction clears the flag (R35). -/
theorem exec_keeps_redraw {i : Instr} {s t : State} (h : exec i s = .next t) (hs : s.redraw = true) : t.redraw = true := by
  obtain ⟨hkeeps, -⟩ := redrawIsSetByDrawingAndNeverRead i s t s.redraw h
  exact hkeeps hs

/-- No `Step` clears the flag, an unknown opcode included. -/
theorem step_keeps_redraw {s t : State} (h : step s = .next t) (hs : s.redraw = true) : t.redraw = true := by
  obtain ⟨i, -, hexec⟩ | ⟨-, hadvance⟩ := step_cases s
  · exact exec_keeps_redraw (hexec.symm.trans h) hs
  · cases hadvance.symm.trans h
    exact hs

/-- Of the host's operations, only `Initialize` and the redraw clear can take the flag from 1 to 0. -/
theorem hostOp_keeps_redraw {font : Vector Byte 80} {op : HostOp} {s t : State} (hinit : op ≠ .initializeCore)
    (hclear : op ≠ .clearRedraw) (h : hostOp font op s = .next t) (hs : s.redraw = true) : t.redraw = true := by
  cases op with
  | initializeCore => exact absurd rfl hinit
  | loadRom bytes => cases h; exact (loadRom_redraw bytes s).trans hs
  | step => exact step_keeps_redraw h hs
  | tickTimers => cases h; exact (tickTimers_redraw s).trans hs
  | setKeys keys => cases h; exact (s.setKeys_redraw keys).trans hs
  | clearRedraw => exact absurd rfl hclear

/-- Settles O54: `Clear` and `DrawSprite` are the instructions that paint, and every other operation keeps a set flag. -/
theorem redrawStaysUntilTheHostClearsIt : Obligations.RedrawStaysUntilTheHostClearsIt := fun s =>
  ⟨clearRedraw_eq s, fun _ => redraw_of_paints (.inl rfl), fun x y n _ => redraw_of_paints (.inr ⟨x, y, n, rfl⟩),
    fun _ _ _ => hostOp_keeps_redraw⟩

end Sys2Proof.Machine
end

section
/-! SUPPORT. `TickTimers` (R230): what each timer is after it. -/

namespace Sys2Proof.Machine

@[simp] theorem tickTimers_DT (s : State) : (tickTimers s).DT = tickByte s.DT := rfl

@[simp] theorem tickTimers_ST (s : State) : (tickTimers s).ST = tickByte s.ST := rfl

/-- `TickTimers` writes the two timers and nothing else. -/
theorem tickTimers_eq (s : State) : tickTimers s = { s with DT := tickByte s.DT, ST := tickByte s.ST } := rfl

/-- Settles O50: each timer is ticked as a byte, and a byte's tick saturates at zero (`tickByte_toNat`). -/
theorem tickLowersEachTimerByOne : Obligations.TickLowersEachTimerByOne := fun s => by
  refine ⟨?_, ?_, tickTimers_eq s⟩
  · rw [tickTimers_DT, tickByte_toNat]
  · rw [tickTimers_ST, tickByte_toNat]

end Sys2Proof.Machine
end

section
/-! SUPPORT. The host's view of the framebuffer (R240). It is a function of the framebuffer and the redraw flag alone, so whatever
leaves these two alone leaves the view alone: a write to memory, and every instruction that does not paint. -/

namespace Sys2Proof.Machine

/-! ## What the view is -/

theorem exportFrame_length (s : State) : (exportFrame s).1.length = 2048 := by
  rw [exportFrame, List.length_map, List.length_range]

theorem exportFrame_redraw (s : State) : (exportFrame s).2 = s.redraw := rfl

theorem exportFrame_getElem? (s : State) {p : Nat} (hp : p < 2048) : (exportFrame s).1[p]? = some (pixel s.fb p) := by
  rw [exportFrame, List.getElem?_map, List.getElem?_range hp, Option.map_some]

theorem exportFrame_congr {s t : State} (hfb : t.fb = s.fb) (hredraw : t.redraw = s.redraw) :
    exportFrame t = exportFrame s := by
  rw [exportFrame, exportFrame, hfb, hredraw]

/-! ## An instruction that does not paint leaves the framebuffer alone -/

@[simp] theorem returnResult_fb (s : State) : (returnResult s).1.fb = s.fb := by
  by_cases h : 0 < s.sp.val <;> simp only [returnResult, h, ↓reduceDIte] <;> rfl

@[simp] theorem callResult_fb (addr : Word) (s : State) : (callResult addr s).1.fb = s.fb := by
  by_cases h : s.sp.val < 16 <;> simp only [callResult, h, ↓reduceDIte] <;> rfl

theorem execWaitForKey_fb {x : Index} {s t : State} (h : execWaitForKey x s = .next t) : t.fb = s.fb := by
  cases hk : s.lowestPressed <;> simp only [execWaitForKey, hk] at h <;> cases h <;> rfl

theorem fb_of_not_paints {i : Instr} {s t : State} (hi : ¬ Paints i) (h : exec i s = .next t) : t.fb = s.fb := by
  cases i
  case clear => exact absurd (.inl rfl) hi
  case drawSprite x y n => exact absurd (.inr ⟨x, y, n, rfl⟩) hi
  case ret => cases h; exact returnResult_fb s
  case call addr => cases h; exact callResult_fb addr s
  case waitForKey x => exact execWaitForKey_fb h
  case skipIfEqualImmediate | skipIfNotEqualImmediate | skipIfRegistersEqual | skipIfRegistersNotEqual | skipIfKeyPressed |
      skipIfKeyNotPressed =>
    cases h; exact s.skipIf_fb _
  all_goals cases h; rfl

theorem exportFrame_of_not_paints {i : Instr} {s t : State} (hi : ¬ Paints i) (h : exec i s = .next t) :
    exportFrame t = exportFrame s :=
  exportFrame_congr (fb_of_not_paints hi h) (redraw_of_not_paints hi h)

/-- Settles O55: the pixels are read off in index order, memory takes no part, and an instruction other than `Clear` and
`DrawSprite` does not paint. -/
theorem exportShowsThePixelsInIndexOrder : Obligations.ExportShowsThePixelsInIndexOrder := fun s => by
  refine ⟨exportFrame_length s, exportFrame_redraw s, fun x hx y hy => ?_, fun m => exportFrame_congr rfl rfl,
    fun i t h hclear hdraw => ?_⟩
  · exact exportFrame_getElem? s (by omega)
  · have hi : ¬ Paints i := not_or.mpr ⟨hclear, fun ⟨x, y, n, hxyn⟩ => hdraw x y n hxyn⟩
    exact exportFrame_of_not_paints hi h

end Sys2Proof.Machine
end

section
/-! SUPPORT. `LoadROM` on memory (R262). An accepted ROM lies at 0x200 to 0xFFF: no address of it wraps, so it covers only the
addresses it is written to. -/

namespace Sys2Proof.Machine

theorem readByte_rom (s : State) {bytes : List Byte} (hfits : bytes.length ≤ 3584) {k : Nat} (hk : k < bytes.length) :
    (s.writeBytes 0x200 bytes).readByte (0x200 + k) = bytes[k] :=
  s.readByte_writeBytes_of_lt 0x200 k bytes hk (by omega)

theorem readByte_outside_rom (s : State) {bytes : List Byte} (hfits : bytes.length ≤ 3584) {a : Nat} (ha : a < 4096)
    (houtside : a < 0x200 ∨ 0x200 + bytes.length ≤ a) : (s.writeBytes 0x200 bytes).readByte a = s.readByte a := by
  refine s.readByte_writeBytes_of_ne 0x200 a bytes fun k hk => ?_
  have hphysA : physical a = a := Nat.mod_eq_of_lt ha
  have hphysK : physical (0x200 + k) = 0x200 + k := Nat.mod_eq_of_lt (by simp only [Config.memSize]; omega)
  rw [hphysA, hphysK]; omega

theorem writeBytes_eq (s : State) (a : Nat) (bytes : List Byte) :
    s.writeBytes a bytes = { s with mem := (s.writeBytes a bytes).mem } := rfl

/-- Settles O52, by the length of the ROM: a fitting one is written from 0x200 on, a longer one is not written at all. -/
theorem loadRomCopiesOrRefusesWhole : Obligations.LoadRomCopiesOrRefusesWhole := fun s bytes => by
  refine ⟨fun hfits => ?_, fun hlong => loadRom_of_gt hlong s⟩
  exact ⟨s.writeBytes 0x200 bytes, loadRom_of_le hfits s, fun _ hk => readByte_rom s hfits hk,
    fun _ ha houtside => readByte_outside_rom s hfits ha houtside, writeBytes_eq s 0x200 bytes⟩

end Sys2Proof.Machine
end

section
/-! SUPPORT. Every instruction as one update of the fields it writes, without a branch that leaves a field out: an error of the
call stack and a skip that is not taken write the values that were there. What an instruction leaves alone, and what it does not
read, can then be seen field by field, for all 34 instructions alike. -/

namespace Sys2Proof.Machine

/-- The state after an instruction. -/
def execResult (i : Instr) (s : State) : State :=
  match i with
  | .clear => s.paint 0
  | .ret =>
    { s with
      sp := ⟨s.sp.val - 1, by omega⟩
      pc := if s.sp.val = 0 then s.pc else s.stack[s.sp.val - 1] }
  | .jump addr => s.setPc addr
  | .call addr =>
    { s with
      stack := s.stack.setIfInBounds s.sp.val s.pc
      sp := ⟨min (s.sp.val + 1) 16, by omega⟩
      pc := if s.sp.val = 16 then s.pc else addr }
  | .skipIfEqualImmediate x kk => s.setPc (if s.reg x = kk then s.pc + 2 else s.pc)
  | .skipIfNotEqualImmediate x kk => s.setPc (if s.reg x ≠ kk then s.pc + 2 else s.pc)
  | .skipIfRegistersEqual x y => s.setPc (if s.reg x = s.reg y then s.pc + 2 else s.pc)
  | .loadImmediate x kk => s.setReg x kk
  | .addImmediate x kk => s.setReg x (s.reg x + kk)
  | .copy x y => s.setReg x (s.reg y)
  | .or x y => s.setReg x (s.reg x ||| s.reg y)
  | .and x y => s.setReg x (s.reg x &&& s.reg y)
  | .xor x y => s.setReg x (s.reg x ^^^ s.reg y)
  | .add x y => s.setRegFlag x (s.reg x + s.reg y) (carryFlag (s.reg x) (s.reg y))
  | .subXY x y => s.setRegFlag x (s.reg x - s.reg y) (greaterFlag (s.reg x) (s.reg y))
  | .shiftRight x => s.setRegFlag x (s.reg x >>> 1) (lowBitFlag (s.reg x))
  | .subYX x y => s.setRegFlag x (s.reg y - s.reg x) (greaterFlag (s.reg y) (s.reg x))
  | .shiftLeft x => s.setRegFlag x (s.reg x <<< 1) (highBitFlag (s.reg x))
  | .skipIfRegistersNotEqual x y => s.setPc (if s.reg x ≠ s.reg y then s.pc + 2 else s.pc)
  | .setIndex addr => s.setI addr
  | .jumpPlusV0 addr => s.setPc (jumpTarget addr (s.reg 0))
  | .random x kk => (s.setReg x (Config.rnd s.draws &&& kk)).drawn
  | .drawSprite x y n =>
    (s.paint (s.drawRows (s.reg x).toNat (s.reg y).toNat n).1).setFlag (s.drawRows (s.reg x).toNat (s.reg y).toNat n).2
  | .skipIfKeyPressed x => s.setPc (if s.pressed (keyIndex (s.reg x)) = true then s.pc + 2 else s.pc)
  | .skipIfKeyNotPressed x => s.setPc (if s.pressed (keyIndex (s.reg x)) = false then s.pc + 2 else s.pc)
  | .loadDelayIntoRegister x => s.setReg x s.DT
  | .waitForKey x =>
    { s with
      V := s.lowestPressed.elim s.V fun k => s.V.set x.val (BitVec.ofNat 8 k.val) x.isLt
      pc := s.lowestPressed.elim (s.pc - 2) fun _ => s.pc }
  | .setDelay x => s.setDT (s.reg x)
  | .setSound x => s.setST (s.reg x)
  | .addToIndex x => s.setI (s.I + zext16 (s.reg x))
  | .spriteAddress x => s.setI (glyphAddr (s.reg x))
  | .storeBCD x => s.writeBytes (s.dataAddr 0) (bcdDigits (s.reg x))
  | .saveRegisters x => s.writeBytes (s.dataAddr 0) (s.regsUpTo x)
  | .loadRegisters x => s.setV (s.loadRegs (x.val + 1))

/-! ## The operations that branch -/

/-- A skip writes pc in either case. -/
theorem State.skipIf_eq_setPc (s : State) (c : Bool) (p : Prop) [Decidable p] (h : c = true ↔ p) :
    s.skipIf c = s.setPc (if p then s.pc + 2 else s.pc) := by
  by_cases hp : p
  · rw [if_pos hp, h.mpr hp]; rfl
  · rw [if_neg hp, Bool.eq_false_iff.mpr (mt h.mp hp)]; rfl

theorem returnResult_fst (s : State) : (returnResult s).1 = execResult .ret s := by
  by_cases h : 0 < s.sp.val
  · rw [returnResult, dif_pos h, execResult, if_neg (by omega)]; rfl
  · have hsp : s.sp = ⟨s.sp.val - 1, by omega⟩ := Fin.ext (by simp only; omega)
    rw [returnResult, dif_neg h, execResult, if_pos (by omega), ← hsp]; rfl

theorem callResult_fst (addr : Word) (s : State) : (callResult addr s).1 = execResult (.call addr) s := by
  by_cases h : s.sp.val < 16
  · have hsp : (⟨s.sp.val + 1, Nat.succ_lt_succ h⟩ : Fin 17) = ⟨min (s.sp.val + 1) 16, by omega⟩ :=
      Fin.ext (by simp only; omega)
    have hstack : s.stack.set s.sp.val s.pc h = s.stack.setIfInBounds s.sp.val s.pc := by
      ext j hj
      rw [Vector.getElem_set, Vector.getElem_setIfInBounds]
    rw [callResult, dif_pos h, execResult, if_neg (by omega), ← hsp, ← hstack]; rfl
  · have hsp : s.sp = ⟨min (s.sp.val + 1) 16, by omega⟩ := Fin.ext (by simp only; omega)
    have hstack : s.stack = s.stack.setIfInBounds s.sp.val s.pc := by
      ext j hj
      rw [Vector.getElem_setIfInBounds, if_neg (by omega)]
    rw [callResult, dif_neg h, execResult, if_pos (by omega), ← hsp, ← hstack]; rfl

theorem execWaitForKey_eq (x : Index) (s : State) : execWaitForKey x s = .next (execResult (.waitForKey x) s) := by
  cases h : s.lowestPressed <;> simp only [execWaitForKey, execResult, h] <;> rfl

/-! ## All instructions -/

/-- R125: every instruction completes, in the state `execResult` gives. -/
theorem exec_eq (i : Instr) (s : State) : exec i s = .next (execResult i s) := by
  cases i
  case ret => exact congrArg _ (returnResult_fst s)
  case call addr => exact congrArg _ (callResult_fst addr s)
  case waitForKey x => exact execWaitForKey_eq x s
  case skipIfEqualImmediate | skipIfRegistersEqual => exact congrArg _ (s.skipIf_eq_setPc _ _ beq_iff_eq)
  case skipIfNotEqualImmediate | skipIfRegistersNotEqual => exact congrArg _ (s.skipIf_eq_setPc _ _ bne_iff_ne)
  case skipIfKeyPressed => exact congrArg _ (s.skipIf_eq_setPc _ _ Iff.rfl)
  case skipIfKeyNotPressed => exact congrArg _ (s.skipIf_eq_setPc _ _ (Bool.not_eq_true' _).to_iff)
  all_goals rfl

theorem eq_execResult {i : Instr} {s t : State} (h : exec i s = .next t) : t = execResult i s :=
  Host.Outcome.next.inj (h.symm.trans (exec_eq i s))

theorem step_of_ok {s : State} {i : Instr} (h : decodeWord s.fetchWord = .ok i) : step s = exec i s.advancePc := by
  rw [step, h]

theorem step_of_error {s : State} {e : DecodeError} (h : decodeWord s.fetchWord = .error e) : step s = .next s.advancePc := by
  rw [step, h]; rfl

/-- R125: `Step` is total. -/
theorem step_completes (s : State) : ∃ t, step s = .next t := by
  obtain ⟨i, -, hexec⟩ | ⟨-, hadvance⟩ := step_cases s
  · exact ⟨_, hexec.trans (exec_eq i _)⟩
  · exact ⟨_, hadvance⟩

/-- Settles O15: a known word runs an instruction, and every instruction completes. -/
theorem stepAlwaysCompletes : Obligations.StepAlwaysCompletes := step_completes

end Sys2Proof.Machine
end

section
/-! SUPPORT. The invariant (R43, log 5): only writes to memory can touch it, and every write keeps memory canonical. -/

namespace Sys2Proof.Machine

open Safety

theorem exec_keeps_invariant {i : Instr} {s t : State} (hs : Invariant s) (h : exec i s = .next t) : Invariant t := by
  obtain hmem | ⟨a, bytes, hmem⟩ := exec_mem h
  · rw [Invariant, hmem]; exact hs
  · rw [Invariant, hmem]; exact Memory.wf_writeBytes hs a bytes

theorem step_keeps_invariant {s t : State} (hs : Invariant s) (h : step s = .next t) : Invariant t := by
  obtain ⟨i, -, hexec⟩ | ⟨-, hadvance⟩ := step_cases s
  · exact exec_keeps_invariant (s := s.advancePc) hs (hexec.symm.trans h)
  · cases hadvance.symm.trans h
    exact hs

theorem initializeCore_invariant (font : Vector Byte 80) (s : State) : Invariant (initializeCore font s) :=
  Memory.wf_writeBytes Memory.wf_nil _ _

theorem loadRom_keeps_invariant {s : State} (hs : Invariant s) (bytes : List Byte) : Invariant (loadRom bytes s).1 := by
  rcases Nat.lt_or_ge 3584 bytes.length with hgt | hle
  · rw [loadRom_of_gt hgt]; exact hs
  · rw [loadRom_of_le hle]; exact Memory.wf_writeBytes hs _ _

/-- Each of the host's operations completes and keeps the invariant. -/
theorem hostOp_keeps_invariant (font : Vector Byte 80) (op : HostOp) {s : State} (hs : Invariant s) :
    ∃ t, hostOp font op s = .next t ∧ Invariant t := by
  cases op with
  | initializeCore => exact ⟨_, rfl, initializeCore_invariant font s⟩
  | loadRom bytes => exact ⟨_, rfl, loadRom_keeps_invariant hs bytes⟩
  | step =>
    obtain ⟨t, ht⟩ := step_completes s
    exact ⟨t, ht, step_keeps_invariant hs ht⟩
  | tickTimers => exact ⟨_, rfl, hs⟩
  | setKeys keys => exact ⟨_, rfl, hs⟩
  | clearRedraw => exact ⟨_, rfl, hs⟩

theorem hostRun_cons_of_next {font : Vector Byte 80} {op : HostOp} {s t : State} (h : hostOp font op s = .next t)
    (ops : List HostOp) : hostRun font (op :: ops) s = hostRun font ops t := by
  rw [hostRun, h]

/-- Settles O4, by what an instruction does to memory. -/
theorem stepKeepsInvariant : Obligations.StepKeepsInvariant := fun _ _ => step_keeps_invariant

/-- Settles O5, by induction on the list of operations. -/
theorem hostRunKeepsInvariant : Obligations.HostRunKeepsInvariant := by
  intro font ops
  induction ops with
  | nil => exact fun s hs => ⟨s, rfl, hs⟩
  | cons op ops ih =>
    intro s hs
    obtain ⟨t, hop, ht⟩ := hostOp_keeps_invariant font op hs
    rw [hostRun_cons_of_next hop]
    exact ih t ht

/-- Settles O3. -/
theorem resetMeetsInvariant : Obligations.ResetMeetsInvariant := Memory.wf_nil

end Sys2Proof.Machine
end

section
/-! SUPPORT. The free stack slots (R30, D26): no instruction reads a slot at or above `sp`. -/

namespace Sys2Proof.Machine

/-- The two stacks hold the same return addresses at depth `n`. -/
def SlotsAgreeBelow (n : Nat) (a b : Vector Word 16) : Prop := ∀ j : Fin 16, j.val < n → a[j] = b[j]

/-- A push onto two stacks that agree leaves them agreeing, the new slot included. -/
theorem SlotsAgreeBelow.push {sp : Nat} {a b : Vector Word 16} (h : SlotsAgreeBelow sp a b) (pc : Word) :
    SlotsAgreeBelow (min (sp + 1) 16) (a.setIfInBounds sp pc) (b.setIfInBounds sp pc) := by
  intro j hj
  simp only [Fin.getElem_fin, Vector.getElem_setIfInBounds]
  split_ifs with hsp
  · rfl
  · exact h j (by omega)

/-- An instruction run with other free slots does the same, but for free slots. -/
theorem execResult_free_slots (i : Instr) (s : State) {slots : Vector Word 16} (h : SlotsAgreeBelow s.sp.val slots s.stack) :
    ∃ slots', execResult i { s with stack := slots } = { execResult i s with stack := slots' } ∧
      SlotsAgreeBelow (execResult i s).sp.val slots' (execResult i s).stack := by
  cases i
  case ret =>
    have hpc : (if s.sp.val = 0 then s.pc else slots[s.sp.val - 1]) =
        if s.sp.val = 0 then s.pc else s.stack[s.sp.val - 1] := by
      split_ifs with hsp
      · rfl
      · exact h ⟨s.sp.val - 1, by omega⟩ (by simp only; omega)
    refine ⟨slots, ?_, fun j hj => h j ?_⟩
    · simp only [execResult, hpc]
    · exact Nat.lt_of_lt_of_le hj (Nat.sub_le _ _)
  case call addr => exact ⟨slots.setIfInBounds s.sp.val s.pc, rfl, h.push s.pc⟩
  all_goals exact ⟨slots, rfl, h⟩

/-- Settles O25: the fetched word does not depend on the slots, nor does what the instruction makes of the rest. -/
theorem freeStackSlotsAreUnobservable : Obligations.FreeStackSlotsAreUnobservable := by
  intro s t slots hslots hstep
  obtain ⟨i, hdec, hexec⟩ | ⟨hdec, hadvance⟩ := step_cases s
  · obtain rfl := eq_execResult (hexec.symm.trans hstep)
    obtain ⟨slots', hres, hagree⟩ := execResult_free_slots i s.advancePc hslots
    have hrun : step { s with stack := slots } = exec i { s.advancePc with stack := slots } := step_of_ok hdec
    exact ⟨slots', by rw [hrun, exec_eq, hres], hagree⟩
  · cases hadvance.symm.trans hstep
    exact ⟨slots, step_of_error hdec, hslots⟩

end Sys2Proof.Machine
end

section
/-! SUPPORT. The opcode table: no word is selected by two rows (R95), so a selected row is the decoder's answer, and the round
trip through the encoder (R91 to R96) follows in both directions. -/

namespace Sys2Proof

/-! ## Disjoint rows -/

/-- A word that two rows select has the two patterns under both masks. -/
theorem OpcodeRow.patterns_agree {r r' : OpcodeRow} {w : Word} (h : r.selects w = true) (h' : r'.selects w = true) :
    r.pattern &&& r'.mask = r'.pattern &&& r.mask := by
  have hr : w &&& r.mask = r.pattern := by simpa [OpcodeRow.selects] using h
  have hr' : w &&& r'.mask = r'.pattern := by simpa [OpcodeRow.selects] using h'
  rw [← hr, ← hr', BitVec.and_assoc, BitVec.and_assoc, BitVec.and_comm r.mask]

/-- R95, decided on the masks and patterns of the table. -/
theorem opcodeRows_patterns_differ :
    opcodeRows.Pairwise fun r r' => r.pattern &&& r'.mask ≠ r'.pattern &&& r.mask := by
  decide

theorem opcodeRows_disjoint :
    opcodeRows.Pairwise fun r r' => ∀ w, ¬ (r.selects w = true ∧ r'.selects w = true) :=
  opcodeRows_patterns_differ.imp fun hne _ h => hne (OpcodeRow.patterns_agree h.1 h.2)

theorem eq_of_selects {r r' : OpcodeRow} (hr : r ∈ opcodeRows) (hr' : r' ∈ opcodeRows) {w : Word}
    (h : r.selects w = true) (h' : r'.selects w = true) : r = r' := by
  have hsymm : Std.Symm fun r r' : OpcodeRow => r.pattern &&& r'.mask ≠ r'.pattern &&& r.mask := ⟨fun _ _ => Ne.symm⟩
  by_contra hne
  exact opcodeRows_patterns_differ.forall hr hr' hne (OpcodeRow.patterns_agree h h')

/-- Settles O8. -/
theorem noWordMatchesTwoRows : Obligations.NoWordMatchesTwoRows := ⟨rfl, opcodeRows_disjoint⟩

/-! ## The decoder's answers -/

theorem decodeWord_of_selects {r : OpcodeRow} (hr : r ∈ opcodeRows) {w : Word} (h : r.selects w = true) :
    decodeWord w = .ok (r.form w) := by
  cases hdec : decodeWord w with
  | error e => exact absurd h (by simp [(decodeWord_error hdec).2 r hr])
  | ok i =>
    obtain ⟨r', hr', hsel', rfl⟩ := decodeWord_ok hdec
    rw [eq_of_selects hr hr' h hsel']

theorem decodeWord_unknown_iff {w v : Word} :
    decodeWord w = .error (.unknownOpcode v) ↔ v = w ∧ ∀ r ∈ opcodeRows, r.selects w = false := by
  constructor
  · intro h
    obtain ⟨he, hrows⟩ := decodeWord_error h
    cases he
    exact ⟨rfl, hrows⟩
  · rintro ⟨rfl, hrows⟩
    have hnone : opcodeRows.find? (fun r => r.selects v) = none := List.find?_eq_none.mpr fun r hr => by simp [hrows r hr]
    rw [decodeWord, hnone]

theorem decodeBytes_ok_iff {hi lo : Byte} {rest rest' : List Byte} {i : Instr} :
    decodeBytes (hi :: lo :: rest) = .ok (i, rest') ↔ decodeWord (wordOfBytes hi lo) = .ok i ∧ rest = rest' := by
  cases h : decodeWord (wordOfBytes hi lo) <;> simp [decodeBytes, h, Except.map]

/-! ## Encode, then decode -/

/-- The row that selects an instruction's word, for all 34 in the table's order. -/
theorem encodedRow (i : Instr) : Laws.EncodedRow.Statement i := by
  open Laws.EncodedRow in
  cases i
  exacts [clear, ret, jump _, call _, skipIfEqualImmediate _ _, skipIfNotEqualImmediate _ _,
    skipIfRegistersEqual _ _, loadImmediate _ _, addImmediate _ _, copy _ _, Laws.EncodedRow.or _ _,
    Laws.EncodedRow.and _ _, Laws.EncodedRow.xor _ _, add _ _, subXY _ _, shiftRight _, subYX _ _,
    shiftLeft _, skipIfRegistersNotEqual _ _, setIndex _, jumpPlusV0 _, random _ _, drawSprite _ _ _,
    skipIfKeyPressed _, skipIfKeyNotPressed _, loadDelayIntoRegister _, waitForKey _, setDelay _, setSound _,
    addToIndex _, spriteAddress _, storeBCD _, saveRegisters _, loadRegisters _]

theorem decodeWord_encode {i : Instr} (h : i.wf = true) : decodeWord (encode i) = .ok i := by
  obtain ⟨r, hr, hsel, hform⟩ := encodedRow i h
  rw [decodeWord_of_selects hr hsel, hform]

/-- Settles O6: a row selects the encoded word and reads the operands back, and no other row selects it. -/
theorem decodeOfEncodeGivesInstructionBack : Obligations.DecodeOfEncodeGivesInstructionBack := by
  intro i rest h
  refine decodeBytes_ok_iff.mpr ⟨?_, rfl⟩
  rw [wordOfBytes_hi_lo, decodeWord_encode h]

/-! ## What a row selects, by operation nibble and sub-operation -/

theorem selects_FFFF {p w : Word} {f : Word → Instr} :
    (OpcodeRow.mk 0xFFFF p f).selects w = true ↔ w.toNat = p.toNat := by
  rw [OpcodeRow.selects_iff, toNat_and_FFFF]

theorem selects_F0FF {p w : Word} {f : Word → Instr} (hp : p &&& 0xF0FF = p) :
    (OpcodeRow.mk 0xF0FF p f).selects w = true ↔
      w.toNat / 4096 = p.toNat / 4096 ∧ w.toNat % 256 = p.toNat % 256 := by
  rw [OpcodeRow.selects_iff, ← hp, toNat_and_F0FF, toNat_and_F0FF]; omega

theorem selects_F00F {p w : Word} {f : Word → Instr} (hp : p &&& 0xF00F = p) :
    (OpcodeRow.mk 0xF00F p f).selects w = true ↔
      w.toNat / 4096 = p.toNat / 4096 ∧ w.toNat % 16 = p.toNat % 16 := by
  rw [OpcodeRow.selects_iff, ← hp, toNat_and_F00F, toNat_and_F00F]; omega

theorem selects_F000 {p w : Word} {f : Word → Instr} (hp : p &&& 0xF000 = p) :
    (OpcodeRow.mk 0xF000 p f).selects w = true ↔ w.toNat / 4096 = p.toNat / 4096 := by
  rw [OpcodeRow.selects_iff, ← hp, toNat_and_F000, toNat_and_F000]; omega

/-! ## Decode, then encode -/

/-- The word that the encoding of a decoded instruction is: the word itself, but for the don't-care field of the shifts. -/
def normalWord (w : Word) (i : Instr) : Word :=
  match i with
  | .shiftRight _ => w &&& 0xFF0F
  | .shiftLeft _ => w &&& 0xFF0F
  | _ => w

theorem toNat_and_FF0F (w : Word) : (w &&& 0xFF0F).toNat = w.toNat / 256 * 256 + w.toNat % 16 := by
  have h := and_eq_nibbles w 15 15 0 15 (by decide) (by decide) (by decide) (by decide)
  simp only [land_15, Nat.and_zero, Nat.reduceMul, Nat.reduceAdd] at h
  refine h.trans ?_
  have hw := w.isLt
  omega

/-- A shift's word is put together again with 0 in the field that is no operand. -/
theorem wordXYN_fieldX_zero {w : Word} {op n : Nat} (h : w.toNat / 4096 = op ∧ w.toNat % 16 = n) :
    wordXYN op (fieldX w) 0 n = w &&& 0xFF0F := by
  have := w.isLt
  apply BitVec.eq_of_toNat_eq
  rw [toNat_wordXYN (by omega), toNat_and_FF0F, val_fieldX, Fin.val_zero]; omega

theorem wfAddr_fieldAddr (w : Word) : wfAddr (fieldAddr w) = true := by
  rw [wfAddr, toNat_fieldAddr, decide_eq_true_eq]; omega

theorem wfRows_fieldN (w : Word) : wfRows (fieldN w) = true := by
  rw [wfRows, fieldN, decide_eq_true_eq]; omega

theorem encode_form {r : OpcodeRow} (hr : r ∈ opcodeRows) {w : Word} (h : r.selects w = true) :
    (r.form w).wf = true ∧ encode (r.form w) = normalWord w (r.form w) := by
  simp only [opcodeRows, List.mem_append, or_assoc] at hr
  obtain hfixed | hformX | hformXY | hnibble := hr
  · fin_cases hfixed <;> exact ⟨rfl, (BitVec.eq_of_toNat_eq (selects_FFFF.mp h)).symm⟩
  · fin_cases hformX <;>
      (obtain ⟨hop, hsub⟩ := (selects_F0FF (by decide)).mp h; exact ⟨rfl, wordX_fieldX hop hsub⟩)
  · fin_cases hformXY <;> obtain ⟨hop, hsub⟩ := (selects_F00F (by decide)).mp h
    -- in the two shifts, at places 7 and 9, `y` is no operand (R96)
    iterate 7 exact ⟨rfl, wordXYN_fields hop hsub⟩
    · exact ⟨rfl, wordXYN_fieldX_zero ⟨hop, hsub⟩⟩
    · exact ⟨rfl, wordXYN_fields hop hsub⟩
    · exact ⟨rfl, wordXYN_fieldX_zero ⟨hop, hsub⟩⟩
    · exact ⟨rfl, wordXYN_fields hop hsub⟩
  · fin_cases hnibble <;> have hop := (selects_F000 (by decide)).mp h
    iterate 2 exact ⟨wfAddr_fieldAddr w, wordAddr_fieldAddr hop⟩
    iterate 4 exact ⟨rfl, wordXKK_fields hop⟩
    iterate 2 exact ⟨wfAddr_fieldAddr w, wordAddr_fieldAddr hop⟩
    · exact ⟨rfl, wordXKK_fields hop⟩
    · exact ⟨wfRows_fieldN w, wordXYN_fields hop rfl⟩

/-- Settles O7, row by row: the form of a row that selects the word takes it apart into the fields that the encoder puts
together. -/
theorem decodedInstructionEncodesBack : Obligations.DecodedInstructionEncodesBack := by
  intro w i h
  obtain ⟨r, hr, hsel, rfl⟩ := decodeWord_ok h
  exact encode_form hr hsel

end Sys2Proof
end

section
/-! SUPPORT. The unknown words (R100, R101): which words each group of rows leaves unselected, by operation nibble and
low byte. -/

namespace Sys2Proof

theorem rowsFixed_select_none_iff (w : Word) :
    (∀ r ∈ rowsFixed, r.selects w = false) ↔ w.toNat ≠ 0x00E0 ∧ w.toNat ≠ 0x00EE := by
  simp only [rowsFixed, List.forall_mem_cons, ← Bool.not_eq_true, selects_FFFF]
  simp

theorem rowsX_select_none_iff (w : Word) :
    (∀ r ∈ rowsX, r.selects w = false) ↔
      (w.toNat / 4096 = 0xE → w.toNat % 256 ∉ [0x9E, 0xA1]) ∧
      (w.toNat / 4096 = 0xF → w.toNat % 256 ∉ [0x07, 0x0A, 0x15, 0x18, 0x1E, 0x29, 0x33, 0x55, 0x65]) := by
  simp (disch := decide) only [rowsX, List.forall_mem_cons, ← Bool.not_eq_true, selects_F0FF]
  simp [imp_and, and_assoc]

theorem rowsXY_select_none_iff (w : Word) :
    (∀ r ∈ rowsXY, r.selects w = false) ↔
      (w.toNat / 4096 = 5 → w.toNat % 16 ≠ 0) ∧
      (w.toNat / 4096 = 8 → w.toNat % 16 ∈ [0x8, 0x9, 0xA, 0xB, 0xC, 0xD, 0xF]) ∧
      (w.toNat / 4096 = 9 → w.toNat % 16 ≠ 0) := by
  have hsub : w.toNat % 16 ∈ [0x8, 0x9, 0xA, 0xB, 0xC, 0xD, 0xF] ↔
      w.toNat % 16 ∉ [0x0, 0x1, 0x2, 0x3, 0x4, 0x5, 0x6, 0x7, 0xE] :=
    (by decide : ∀ n < 16, n ∈ [0x8, 0x9, 0xA, 0xB, 0xC, 0xD, 0xF] ↔ n ∉ [0x0, 0x1, 0x2, 0x3, 0x4, 0x5, 0x6, 0x7, 0xE])
      _ (Nat.mod_lt _ (by decide))
  simp (disch := decide) only [rowsXY, List.forall_mem_cons, ← Bool.not_eq_true, selects_F00F, hsub]
  simp [imp_and, and_assoc]

theorem rowsNibble_select_none_iff (w : Word) :
    (∀ r ∈ rowsNibble, r.selects w = false) ↔ w.toNat / 4096 ∈ [0x0, 0x5, 0x8, 0x9, 0xE, 0xF] := by
  have hop : w.toNat / 4096 ∈ [0x0, 0x5, 0x8, 0x9, 0xE, 0xF] ↔
      w.toNat / 4096 ∉ [0x1, 0x2, 0x3, 0x4, 0x6, 0x7, 0xA, 0xB, 0xC, 0xD] :=
    (by decide : ∀ n < 16, n ∈ [0x0, 0x5, 0x8, 0x9, 0xE, 0xF] ↔ n ∉ [0x1, 0x2, 0x3, 0x4, 0x6, 0x7, 0xA, 0xB, 0xC, 0xD])
      _ (Nat.div_lt_of_lt_mul w.isLt)
  simp (disch := decide) only [rowsNibble, List.forall_mem_cons, ← Bool.not_eq_true, selects_F000, hop]
  simp

theorem opcodeRows_select_none_iff (w : Word) :
    (∀ r ∈ opcodeRows, r.selects w = false) ↔
      (∀ r ∈ rowsFixed, r.selects w = false) ∧ (∀ r ∈ rowsX, r.selects w = false) ∧
        (∀ r ∈ rowsXY, r.selects w = false) ∧ ∀ r ∈ rowsNibble, r.selects w = false := by
  simp only [opcodeRows, List.forall_mem_append, and_assoc]

/-- Settles O9: the operation nibble decides which groups of rows have to leave the word unselected. -/
theorem unknownWordsAreExactlyTheListed : Obligations.UnknownWordsAreExactlyTheListed := by
  intro w
  rw [decodeWord_unknown_iff, eq_self_iff_true, true_and, opcodeRows_select_none_iff, rowsFixed_select_none_iff,
    rowsX_select_none_iff, rowsXY_select_none_iff, rowsNibble_select_none_iff]
  simp only [List.mem_cons, List.not_mem_nil, or_false]
  constructor
  · rintro ⟨hfixed, ⟨hE, hF⟩, ⟨h5, h8, h9⟩, hop | hop | hop | hop | hop | hop⟩
    · exact .inl ⟨hop, hfixed⟩
    · exact .inr (.inl ⟨.inl hop, h5 hop⟩)
    · exact .inr (.inr (.inl ⟨hop, h8 hop⟩))
    · exact .inr (.inl ⟨.inr hop, h9 hop⟩)
    · exact .inr (.inr (.inr (.inl ⟨hop, hE hop⟩)))
    · exact .inr (.inr (.inr (.inr ⟨hop, hF hop⟩)))
  · rintro (⟨hop, hne⟩ | ⟨hop, hn⟩ | ⟨hop, hn⟩ | ⟨hop, hkk⟩ | ⟨hop, hkk⟩) <;> omega

/-- Settles O10. -/
theorem specExampleWordsDecode : Obligations.SpecExampleWordsDecode :=
  ⟨rfl, rfl, rfl, rfl, rfl, rfl, rfl, rfl, rfl, rfl, rfl⟩

end Sys2Proof
end

section
/-! SUPPORT. The call stack (R30, R141, R143): `Call` and `Return` by the depth they meet. -/

namespace Sys2Proof.Machine

theorem returnResult_of_pos {s : State} (h : 0 < s.sp.val) : returnResult s = (s.popPc h, .ok) := dif_pos h

theorem returnResult_of_zero {s : State} (h : s.sp.val = 0) : returnResult s = (s, .error .stackUnderflow) :=
  dif_neg (by omega)

theorem callResult_of_lt (addr : Word) {s : State} (h : s.sp.val < 16) :
    callResult addr s = ((s.push s.pc h).setPc addr, .ok) := dif_pos h

theorem callResult_of_full (addr : Word) {s : State} (h : s.sp.val = 16) :
    callResult addr s = (s, .error .stackOverflow) := dif_neg (by omega)

theorem exec_ret (s : State) : exec .ret s = .next (returnResult s).1 := rfl

theorem exec_call (addr : Word) (s : State) : exec (.call addr) s = .next (callResult addr s).1 := rfl

theorem instrStatus_ret (s : State) : instrStatus .ret s = (returnResult s).2 := rfl

theorem instrStatus_call (addr : Word) (s : State) : instrStatus (.call addr) s = (callResult addr s).2 := rfl

/-- Settles O28, by the depth. -/
theorem callPushesTheReturnAddress : Obligations.CallPushesTheReturnAddress := by
  intro s addr
  rw [exec_call, instrStatus_call]
  refine ⟨fun h => ?_, fun h => ?_⟩
  · rw [callResult_of_lt addr h]; exact ⟨rfl, rfl⟩
  · rw [callResult_of_full addr h]; exact ⟨rfl, rfl⟩

/-- Settles O29, by the depth. -/
theorem returnPopsTheReturnAddress : Obligations.ReturnPopsTheReturnAddress := by
  intro s
  rw [exec_ret, instrStatus_ret]
  refine ⟨fun j hj => ?_, fun h => ?_⟩
  · have hpos : 0 < s.sp.val := by omega
    have hj' : s.sp.val - 1 = j.val := by omega
    rw [returnResult_of_pos hpos]
    simp only [State.popPc, hj', Fin.getElem_fin, and_self]
  · rw [returnResult_of_zero h]; exact ⟨rfl, rfl⟩

/-- A `Return` pops what the `Call` before it pushed. -/
theorem popPc_push (s : State) (addr : Word) (h : s.sp.val < 16) :
    ((s.push s.pc h).setPc addr).advancePc.popPc (Nat.succ_pos _) = { s with stack := s.stack.set s.sp.val s.pc h } := by
  simp [State.popPc, State.advancePc, State.push, State.setPc]

/-- Settles O31. -/
theorem returnUndoesCall : Obligations.ReturnUndoesCall := by
  intro s t addr h hcall
  rw [exec_call_of_lt addr h] at hcall
  cases hcall
  refine ⟨_, ?_, popPc_push s addr h⟩
  rw [exec_ret, returnResult_of_pos (Nat.succ_pos _)]

/-! ## Nested calls -/

/-- The calls run one after another, each at the pc that the one before it left, advanced by 2. -/
def nestedCalls (targets : List Word) (o : Option State) : Option State :=
  targets.foldl (fun o addr => o.bind fun u => nextState? (exec (.call addr) u.advancePc)) o

/-- A `Call` in a `Step`: the return address is two above the pc of the step. -/
theorem exec_call_advancePc (addr : Word) {s : State} (h : s.sp.val < 16) :
    exec (.call addr) s.advancePc =
      .next { s with stack := s.stack.set s.sp.val (s.pc + 2) h, sp := ⟨s.sp.val + 1, Nat.succ_lt_succ h⟩, pc := addr } :=
  exec_call_of_lt addr (s := s.advancePc) h

theorem nestedCalls_cons (addr : Word) (targets : List Word) {s : State} (h : s.sp.val < 16) :
    nestedCalls (addr :: targets) (some s) =
      nestedCalls targets (some
        { s with stack := s.stack.set s.sp.val (s.pc + 2) h, sp := ⟨s.sp.val + 1, Nat.succ_lt_succ h⟩, pc := addr }) := by
  rw [nestedCalls, List.foldl_cons, Option.bind_some, exec_call_advancePc addr h]; rfl

/-- What is left of the calls: their return addresses, on top of the slots that were in use. -/
theorem nestedCalls_spec (targets : List Word) (s : State) (hfits : s.sp.val + targets.length ≤ 16) :
    ∃ t, nestedCalls targets (some s) = some t ∧
      t.sp.val = s.sp.val + targets.length ∧
      (∀ j : Fin 16, j.val < s.sp.val → t.stack[j] = s.stack[j]) ∧
      ∀ (k : Nat) (_ : k < targets.length) (_ : s.sp.val + k < 16),
        t.stack[s.sp.val + k] = (if k = 0 then s.pc else (targets[k - 1]?).getD 0) + 2 := by
  induction targets generalizing s with
  | nil => exact ⟨s, rfl, rfl, fun _ _ => rfl, fun k hk => absurd hk (Nat.not_lt_zero k)⟩
  | cons addr targets ih =>
    rw [List.length_cons] at hfits
    have hsp : s.sp.val < 16 := by omega
    obtain ⟨t, hrun, hdepth, hkept, hslots⟩ := ih
      { s with stack := s.stack.set s.sp.val (s.pc + 2) hsp, sp := ⟨s.sp.val + 1, Nat.succ_lt_succ hsp⟩, pc := addr }
      (by simp only; omega)
    simp only at hdepth hkept hslots
    refine ⟨t, (nestedCalls_cons addr targets hsp).trans hrun, ?_, fun j hj => ?_, fun k hk hj => ?_⟩
    · rw [hdepth, List.length_cons]; omega
    · rw [hkept j (by omega), Fin.getElem_fin, Fin.getElem_fin, Vector.getElem_set_ne _ _ (by omega)]
    · cases k with
      | zero =>
        have hslot := hkept ⟨s.sp.val, hsp⟩ (Nat.lt_succ_self _)
        simpa using hslot
      | succ k =>
        have hslot := hslots k (Nat.lt_of_succ_lt_succ hk) (by omega)
        have hindex : s.sp.val + (k + 1) = s.sp.val + 1 + k := by omega
        simp only [hindex, hslot]
        cases k <;> simp

/-- Settles O30, by induction on the targets; the call after the sixteenth meets a full stack. -/
theorem nestedCallsHoldEveryReturnAddress : Obligations.NestedCallsHoldEveryReturnAddress := by
  intro targets s hfits
  obtain ⟨t, hrun, hdepth, hkept, hslots⟩ := nestedCalls_spec targets s hfits
  refine ⟨t, hrun, hdepth, hkept, hslots, fun hfull addr => ?_⟩
  rw [instrStatus_call, callResult_of_full addr (s := t.advancePc) hfull]

end Sys2Proof.Machine
end

section
/-! SUPPORT. The status of a `Step` (R124, R220): its errors and the cause of each. -/

namespace Sys2Proof

theorem OpcodeRow.selects_eq_false_iff (r : OpcodeRow) (w : Word) :
    r.selects w = false ↔ w &&& r.mask ≠ r.pattern := by
  simp [OpcodeRow.selects]

end Sys2Proof

namespace Sys2Proof.Machine

theorem stepStatus_of_ok {s : State} {i : Instr} (h : decodeWord s.fetchWord = .ok i) :
    stepStatus s = instrStatus i s.advancePc := by
  rw [stepStatus, h]

theorem stepStatus_of_error {s : State} {e : DecodeError} (h : decodeWord s.fetchWord = .error e) :
    stepStatus s = .error (.unknownOpcode s.fetchWord) := by
  rw [stepStatus, h]; rfl

theorem decodeWord_unknown_of_no_row {w : Word} (h : ∀ r ∈ opcodeRows, w &&& r.mask ≠ r.pattern) :
    decodeWord w = .error (.unknownOpcode w) :=
  decodeWord_unknown_iff.mpr ⟨rfl, fun r hr => (r.selects_eq_false_iff w).mpr (h r hr)⟩

/-- Settles O13: the two bytes at pc are those of the fetched word. -/
theorem stepRunsDecodedInstruction : Obligations.StepRunsDecodedInstruction := by
  intro s i rest h
  have hdec : decodeWord s.fetchWord = .ok i := (decodeBytes_ok_iff.mp h).1
  exact ⟨step_of_ok hdec, stepStatus_of_ok hdec⟩

/-- Settles O14. -/
theorem unknownOpcodeOnlyAdvancesPc : Obligations.UnknownOpcodeOnlyAdvancesPc := by
  intro s h
  have hdec := decodeWord_unknown_of_no_row h
  exact ⟨step_of_error hdec, stepStatus_of_error hdec⟩

/-! ## The causes of errors -/

theorem returnResult_error_iff (s : State) (e : Fault) :
    (returnResult s).2 = .error e ↔ s.sp.val = 0 ∧ e = .stackUnderflow := by
  rcases Nat.eq_zero_or_pos s.sp.val with h | h
  · simp [returnResult_of_zero h, h, eq_comm]
  · simp [returnResult_of_pos h, Nat.ne_of_gt h]

theorem callResult_error_iff (addr : Word) (s : State) (e : Fault) :
    (callResult addr s).2 = .error e ↔ s.sp.val = 16 ∧ e = .stackOverflow := by
  rcases Nat.lt_or_ge s.sp.val 16 with h | h
  · simp [callResult_of_lt addr h, Nat.ne_of_lt h]
  · have hfull : s.sp.val = 16 := by omega
    simp [callResult_of_full addr hfull, hfull, eq_comm]

theorem instrStatus_error_iff (i : Instr) (s : State) (e : Fault) :
    instrStatus i s = .error e ↔
      (i = .ret ∧ s.sp.val = 0 ∧ e = .stackUnderflow) ∨
        ∃ addr, i = .call addr ∧ s.sp.val = 16 ∧ e = .stackOverflow := by
  cases i
  case ret => simpa [instrStatus_ret] using returnResult_error_iff s e
  case call addr => simpa [instrStatus_call] using callResult_error_iff addr s e
  all_goals simp [instrStatus]

/-- R220: the three errors of a `Step`, each with its cause. -/
theorem stepStatus_error_iff (s : State) (e : Fault) :
    stepStatus s = .error e ↔
      (decodeWord s.fetchWord = .ok .ret ∧ s.sp.val = 0 ∧ e = .stackUnderflow) ∨
      (∃ addr, decodeWord s.fetchWord = .ok (.call addr) ∧ s.sp.val = 16 ∧ e = .stackOverflow) ∨
      (decodeWord s.fetchWord = .error (.unknownOpcode s.fetchWord) ∧ e = .unknownOpcode s.fetchWord) := by
  cases hdec : decodeWord s.fetchWord with
  | ok i => rw [stepStatus_of_ok hdec, instrStatus_error_iff]; simp
  | error d => rw [stepStatus_of_error hdec, (decodeWord_error hdec).1]; simp [eq_comm]

/-- Settles O16. -/
theorem eachErrorHasItsExactCause : Obligations.EachErrorHasItsExactCause := by
  intro s
  refine ⟨?_, ?_, fun w => ?_, fun h => ?_⟩
  · rw [stepStatus_error_iff]; simp
  · rw [stepStatus_error_iff]; simp
  · rw [stepStatus_error_iff, decodeWord_unknown_iff]
    simp [OpcodeRow.selects_eq_false_iff, and_comm]
  · simp [stepStatus_error_iff] at h

/-- Settles O17: a stack error is met before anything is written. -/
theorem failedStepChangesOnlyPc : Obligations.FailedStepChangesOnlyPc := by
  intro s e h
  obtain ⟨hdec, hsp, -⟩ | ⟨addr, hdec, hsp, -⟩ | ⟨hdec, -⟩ := (stepStatus_error_iff s e).mp h
  · rw [step_of_ok hdec, exec_ret, returnResult_of_zero (s := s.advancePc) hsp]; rfl
  · rw [step_of_ok hdec, exec_call, callResult_of_full addr (s := s.advancePc) hsp]; rfl
  · exact step_of_error hdec

/-- Settles O58, by the status. -/
theorem strictStepStopsExactlyAtErrors : Obligations.StrictStepStopsExactlyAtErrors := by
  intro s t
  cases h : stepStatus s <;> simp [Safety.strictStep, h]

/-! ## Placed words and fixed points -/

theorem decodeWord_of_decodeTableWord {w : Nat} {i : Instr} (h : decodeTableWord 16 w = some i) :
    decodeWord (BitVec.ofNat 16 (w % 2 ^ 16)) = .ok i := by
  have hlt : w % 2 ^ 16 < 65536 := Nat.mod_lt _ (by decide)
  simp only [decodeTableWord, if_pos hlt] at h
  split at h
  · next j rest hj =>
    cases h
    simpa using (decodeBytes_ok_iff.mp hj).1
  · cases h

/-- Settles O59: the placed word is the fetched one. -/
theorem placedWordIsTheNextInstruction : Obligations.PlacedWordIsTheNextInstruction := by
  intro s w i h
  refine step_of_ok ?_
  rw [State.withFetchWord, State.fetchWord_placeWord]
  exact decodeWord_of_decodeTableWord h

theorem endOfRun_iff (s : State) : Safety.endOfRun s = true ↔ decodeWord s.fetchWord = .ok (.jump s.pc) := by
  rw [Safety.endOfRun]
  split
  · next addr hdec => simp [hdec]
  · next i hne hdec => simpa [hdec] using hne s.pc
  · next e hdec => simp [hdec]

/-- Settles O57: the jump writes back the pc that the advance moved. -/
theorem jumpToItselfIsAFixedPoint : Obligations.JumpToItselfIsAFixedPoint := by
  intro s h
  have hdec := (endOfRun_iff s).mp h
  exact ⟨step_of_ok hdec, stepStatus_of_ok hdec⟩

end Sys2Proof.Machine
end

section
/-! SUPPORT. The results of the register operations (R160 to R170, R180 to R182, R200 to R202, R210) as the numbers and bits that
the rules give. -/

namespace Sys2Proof.Machine

/-! ## Arithmetic on bytes and words -/

theorem byte_add_eq (a b : Byte) : a + b = BitVec.ofNat 8 ((a.toNat + b.toNat) % 256) := by
  apply BitVec.eq_of_toNat_eq
  rw [BitVec.toNat_add, BitVec.toNat_ofNat, Nat.mod_mod]

theorem byte_sub_eq (a b : Byte) : a - b = BitVec.ofNat 8 ((256 + a.toNat - b.toNat) % 256) := by
  have := b.isLt
  apply BitVec.eq_of_toNat_eq
  rw [BitVec.toNat_sub, BitVec.toNat_ofNat, Nat.mod_mod]
  congr 1; omega

theorem byte_shiftRight_eq (a : Byte) : a >>> 1 = BitVec.ofNat 8 (a.toNat / 2) := by
  have := a.isLt
  apply BitVec.eq_of_toNat_eq
  rw [BitVec.toNat_ushiftRight, BitVec.toNat_ofNat, Nat.shiftRight_eq_div_pow]; omega

theorem byte_shiftLeft_eq (a : Byte) : a <<< 1 = BitVec.ofNat 8 (a.toNat * 2 % 256) := by
  apply BitVec.eq_of_toNat_eq
  rw [BitVec.toNat_shiftLeft, BitVec.toNat_ofNat, Nat.shiftLeft_eq, Nat.mod_mod]

theorem word_add_byte_eq (a : Word) (b : Byte) : a + zext16 b = BitVec.ofNat 16 (a.toNat + b.toNat) := by
  have := b.isLt
  apply BitVec.eq_of_toNat_eq
  rw [BitVec.toNat_add, BitVec.toNat_setWidth, BitVec.toNat_ofNat]; omega

theorem glyphAddr_eq (v : Byte) : glyphAddr v = BitVec.ofNat 16 (v.toNat * 5) := by
  have := v.isLt
  apply BitVec.eq_of_toNat_eq
  rw [glyphAddr, BitVec.toNat_mul, BitVec.toNat_setWidth, BitVec.toNat_ofNat, Nat.mod_eq_of_lt (a := v.toNat) (by omega)]
  rfl

/-! ## Flags -/

theorem flagByte_decide (p : Prop) [Decidable p] : flagByte (decide p) = if p then 1 else 0 := by
  by_cases h : p <;> simp [flagByte, h]

theorem flagByte_lowBitFlag (a : Byte) : flagByte (lowBitFlag a) = BitVec.ofNat 8 (a.toNat % 2) := by
  have hbit : lowBitFlag a = decide (a.toNat % 2 = 1) := by
    rw [lowBitFlag, BitVec.getLsbD, Nat.testBit_zero]
  rw [hbit, flagByte_decide]
  rcases Nat.mod_two_eq_zero_or_one a.toNat with h | h <;> rw [h] <;> rfl

theorem flagByte_highBitFlag (a : Byte) : flagByte (highBitFlag a) = BitVec.ofNat 8 (a.toNat / 128) := by
  have := a.isLt
  have hbit : highBitFlag a = decide (a.toNat / 128 = 1) := by
    rw [highBitFlag, BitVec.getLsbD, Nat.testBit_eq_decide_div_mod_eq, decide_eq_decide]
    omega
  rw [hbit, flagByte_decide]
  rcases (by omega : a.toNat / 128 = 0 ∨ a.toNat / 128 = 1) with h | h <;> rw [h] <;> rfl

/-! ## Plain results -/

theorem State.setRegFlag_eq (s : State) (x : Index) {r r' : Byte} {f : Bool} {b : Byte} (hr : r = r') (hf : flagByte f = b) :
    s.setRegFlag x r f = { s with V := (s.V.set x.val r' x.isLt).set 15 b } := by
  rw [← hr, ← hf]; rfl

/-- An instruction that writes one register, with the register's new bits said one by one. -/
theorem exec_setReg_bits {i : Instr} {s : State} {x : Index} {v : Byte} {bit : Nat → Bool}
    (h : exec i s = .next (s.setReg x v)) (hv : ∀ b < 8, v.getLsbD b = bit b) :
    ∃ t, exec i s = .next t ∧ t = { s with V := s.V.set x.val t.V[x] x.isLt } ∧ ∀ b < 8, (t.V[x]).getLsbD b = bit b := by
  have hx : (s.setReg x v).V[x] = v := by simp
  refine ⟨_, h, ?_, fun b hb => ?_⟩
  · rw [hx]; rfl
  · rw [hx, hv b hb]

/-- Settles O33. -/
theorem plainRegisterResults : Obligations.PlainRegisterResults := by
  intro s x y kk
  refine ⟨rfl, ?_, rfl, exec_setReg_bits rfl fun b _ => BitVec.getLsbD_or, exec_setReg_bits rfl fun b _ => BitVec.getLsbD_and,
    exec_setReg_bits rfl fun b _ => BitVec.getLsbD_xor⟩
  rw [← byte_add_eq]; rfl

/-- Settles O34. -/
theorem flagArithmeticResults : Obligations.FlagArithmeticResults := by
  rintro s x y _ _ rfl rfl
  exact ⟨congrArg _ (s.setRegFlag_eq x (byte_add_eq _ _) (flagByte_decide _)),
    congrArg _ (s.setRegFlag_eq x (byte_sub_eq _ _) (flagByte_decide _)),
    congrArg _ (s.setRegFlag_eq x (byte_sub_eq _ _) (flagByte_decide _)),
    congrArg _ (s.setRegFlag_eq x (byte_shiftRight_eq _) (flagByte_lowBitFlag _)),
    congrArg _ (s.setRegFlag_eq x (byte_shiftLeft_eq _) (flagByte_highBitFlag _))⟩

/-- Settles O35. -/
theorem indexRegisterResults : Obligations.IndexRegisterResults := by
  intro s x addr
  have hsum : BitVec.ofNat 16 ((s.I.toNat + (s.V[x]).toNat) % 65536) = s.I + zext16 s.V[x] := by
    rw [word_add_byte_eq]
    exact BitVec.eq_of_toNat_eq (Nat.mod_mod _ _)
  refine ⟨exec_setIndex addr s, ?_, ?_⟩
  · rw [hsum]; rfl
  · rw [← glyphAddr_eq]; rfl

/-- Settles O46. -/
theorem timerMoveResults : Obligations.TimerMoveResults := fun _ _ => ⟨rfl, rfl, rfl⟩

/-- Settles O49: the mask clears the draw's bits. -/
theorem randomMasksTheDraw : Obligations.RandomMasksTheDraw := by
  intro s x kk
  refine ⟨_, rfl, rfl, fun b _ hkk => ?_⟩
  have hx : ((s.setReg x (Config.rnd s.draws &&& kk)).drawn).reg x = Config.rnd s.draws &&& kk :=
    (s.reg_setReg x x _).trans (if_pos rfl)
  rw [hx, BitVec.getLsbD_and, hkk, Bool.and_false]

/-- Settles O26. -/
theorem clearBlanksTheScreen : Obligations.ClearBlanksTheScreen := fun s =>
  ⟨s.paint 0, rfl, fun _ _ => BitVec.getLsbD_zero, rfl, rfl⟩

end Sys2Proof.Machine
end

section
/-! SUPPORT. pc (R25): the jumps, the skips and the wait for a key, and every operation's pc in a `Step`. -/

namespace Sys2Proof.Machine

theorem jumpTarget_eq (addr : Word) (v : Byte) : jumpTarget addr v = BitVec.ofNat 16 (addr.toNat + v.toNat) :=
  word_add_byte_eq addr v

/-- Settles O27: 12 bits and a byte add up to less than 65536. -/
theorem jumpsLoadPc : Obligations.JumpsLoadPc := by
  intro s addr
  refine ⟨exec_jump addr s, _, rfl, rfl, fun haddr => ?_⟩
  have haddr : addr.toNat < 4096 := by simpa [wfAddr] using haddr
  have hv := (s.reg 0).isLt
  rw [State.setPc_pc, jumpTarget_eq, BitVec.toNat_ofNat, Nat.mod_eq_of_lt (by omega)]

/-- Settles O32. -/
theorem skipsAdvancePcByTwoMore : Obligations.SkipsAdvancePcByTwoMore := by
  intro s x y kk
  refine ⟨exec_eq _ s, exec_eq _ s, exec_eq _ s, exec_eq _ s, fun k hk => ?_⟩
  obtain rfl : k = keyIndex (s.reg x) := Fin.ext hk
  exact ⟨exec_eq _ s, exec_eq _ s⟩

/-! ## The wait for a key -/

theorem State.lowestPressed_of_least {s : State} {k : Index} (hk : s.key[k] = true)
    (hlt : ∀ j : Fin 16, j < k → s.key[j] = false) : s.lowestPressed = some k := by
  cases h : s.lowestPressed with
  | none => exact absurd (State.lowestPressed_eq_none h k) (by simp [State.pressed, hk])
  | some j =>
    obtain ⟨hj, hltj⟩ := State.lowestPressed_eq_some h
    rcases lt_trichotomy j k with hjk | rfl | hkj
    · exact absurd hj (by simp [State.pressed, hlt j hjk])
    · rfl
    · exact absurd (hltj k hkj) (by simp [State.pressed, hk])

theorem State.lowestPressed_of_none {s : State} (h : ∀ k : Fin 16, s.key[k] = false) : s.lowestPressed = none := by
  cases hk : s.lowestPressed with
  | none => rfl
  | some k => exact absurd (State.lowestPressed_eq_some hk).1 (by simp [State.pressed, h k])

theorem exec_waitForKey_of_none (x : Index) {s : State} (h : ∀ k : Fin 16, s.key[k] = false) :
    exec (.waitForKey x) s = .next { s with pc := s.pc - 2 } := by
  rw [exec_eq, execResult, State.lowestPressed_of_none h]; rfl

/-- Settles O47. -/
theorem waitForKeyTakesTheLeastPressedKey : Obligations.WaitForKeyTakesTheLeastPressedKey := by
  intro s x
  refine ⟨fun k hk hlt => ?_, exec_waitForKey_of_none x, rfl⟩
  rw [exec_eq, execResult, State.lowestPressed_of_least hk hlt]; rfl

theorem advance_undone (pc : Word) : pc + 2 - 2 = pc := BitVec.add_sub_cancel pc 2

/-- Settles O48. -/
theorem waitForKeyStallChangesNothing : Obligations.WaitForKeyStallChangesNothing := by
  intro s x hdec h
  refine ⟨?_, stepStatus_of_ok hdec⟩
  rw [step_of_ok hdec, exec_waitForKey_of_none x (s := s.advancePc) h]
  simp only [State.advancePc_pc, advance_undone]; rfl

/-! ## pc after a step -/

theorem advance_twice (pc : Word) : pc + 2 + 2 = pc + 4 := BitVec.add_assoc pc 2 2

theorem waitForKey_pc (s : State) :
    (s.lowestPressed.elim (s.pc + 2 - 2) fun _ => s.pc + 2) = if ∃ k : Fin 16, s.key[k] = true then s.pc + 2 else s.pc := by
  cases h : s.lowestPressed with
  | none =>
    have hnone : ¬ ∃ k : Fin 16, s.key[k] = true := fun ⟨k, hk⟩ =>
      absurd (State.lowestPressed_eq_none h k) (by simp [State.pressed, hk])
    rw [if_neg hnone]; exact advance_undone s.pc
  | some k => rw [if_pos ⟨k, (State.lowestPressed_eq_some h).1⟩]; rfl

theorem pressed_keyIndex (s : State) (v : Byte) : s.pressed (keyIndex v) = s.key[v.toNat % 16]! :=
  (getElem!_pos s.key (v.toNat % 16) (Nat.mod_lt _ (by decide))).symm

/-- Settles O18, by the result of each instruction at the advanced pc. -/
theorem pcAfterEachOperation : Obligations.PcAfterEachOperation := by
  intro s t i hdec hstep
  rw [step_of_ok hdec] at hstep
  obtain rfl := eq_execResult hstep
  cases i
  case jumpPlusV0 addr => exact jumpTarget_eq addr _
  case ret =>
    have hlt : s.sp.val - 1 < 16 := by omega
    simp only [Vector.getElem?_eq_getElem hlt]; rfl
  case waitForKey x => exact waitForKey_pc s
  case skipIfEqualImmediate | skipIfNotEqualImmediate | skipIfRegistersEqual | skipIfRegistersNotEqual =>
    simp only [← advance_twice]; rfl
  case skipIfKeyPressed | skipIfKeyNotPressed =>
    simp only [← advance_twice, ← pressed_keyIndex]; rfl
  all_goals rfl

end Sys2Proof.Machine
end

section
/-! SUPPORT. What an instruction writes (R20, R22) and what it does not read (R36, R37). -/

namespace Sys2Proof.Machine

/-! ## Writers -/

/-- Settles O19: each instruction's result shows the fields it writes. -/
theorem stateChangesOnlyByItsWriters : Obligations.StateChangesOnlyByItsWriters := by
  intro i s t h
  obtain rfl := eq_execResult h
  cases i <;> simp [execResult]

theorem State.eq_of_reg_setReg_ne {s : State} {x r : Index} {v : Byte} (h : (s.setReg x v).reg r ≠ s.reg r) : r = x := by
  by_contra hne
  exact h ((s.reg_setReg x r v).trans (if_neg (Ne.symm hne)))

theorem State.eq_of_reg_setRegFlag_ne {s : State} {x r : Index} {v : Byte} {f : Bool}
    (h : (s.setRegFlag x v f).reg r ≠ s.reg r) : r = x ∨ r = VF := by
  by_contra hne
  obtain ⟨hx, hVF⟩ := not_or.mp hne
  rw [State.reg_setRegFlag, if_neg (Ne.symm hVF), if_neg (Ne.symm hx)] at h
  exact h rfl

theorem State.reg_setV_loadRegs (s : State) (x r : Index) :
    (s.setV (s.loadRegs (x.val + 1))).reg r = if r ≤ x then s.readByte (s.dataAddr r.val) else s.reg r := by
  refine (s.getElem_loadRegs (x.val + 1) r.val r.isLt).trans ?_
  simp only [Nat.lt_succ_iff, Fin.val_fin_le]; rfl

/-- Without a key, a wait writes no register. -/
theorem reg_waitForKey_ne {s : State} {x r : Index} (h : (execResult (.waitForKey x) s).reg r ≠ s.reg r) :
    r = x ∧ ∃ k : Fin 16, s.key[k] = true := by
  cases hk : s.lowestPressed with
  | none =>
    rw [execResult, hk] at h
    exact absurd rfl h
  | some k =>
    rw [execResult, hk] at h
    exact ⟨State.eq_of_reg_setReg_ne (s := s) h, k, (State.lowestPressed_eq_some hk).1⟩

/-- Settles O20, by which of the register writes the instruction makes. -/
theorem registersChangeOnlyWhereNamed : Obligations.RegistersChangeOnlyWhereNamed := by
  intro i s t h r hr
  obtain rfl := eq_execResult h
  cases i
  case loadImmediate | addImmediate | copy | or | and | xor | loadDelayIntoRegister => exact State.eq_of_reg_setReg_ne hr
  case random => exact State.eq_of_reg_setReg_ne (s := s) hr
  case add | subXY | subYX | shiftRight | shiftLeft => exact State.eq_of_reg_setRegFlag_ne hr
  case drawSprite => exact State.eq_of_reg_setReg_ne (s := s) hr
  case waitForKey => exact reg_waitForKey_ne hr
  case loadRegisters x =>
    by_contra hlt
    exact hr ((s.reg_setV_loadRegs x r).trans (if_neg hlt))
  all_goals exact hr rfl

/-- Settles O39. -/
theorem loadRegistersLoadsUpToX : Obligations.LoadRegistersLoadsUpToX := fun s x =>
  ⟨_, rfl, s.reg_setV_loadRegs x, rfl⟩

/-! ## Readers -/

theorem execResult_key (i : Instr) (s : State) : (execResult i s).key = s.key := by
  cases i <;> rfl

/-- Settles O22: but for the three, no instruction's result mentions the keypad. -/
theorem onlyKeyOperationsReadTheKeypad : Obligations.OnlyKeyOperationsReadTheKeypad := by
  intro i s t keys h
  obtain rfl := eq_execResult h
  refine ⟨execResult_key i s, ?_⟩
  rw [exec_eq]
  cases i
  case skipIfKeyPressed x => exact .inl ⟨x, .inl rfl⟩
  case skipIfKeyNotPressed x => exact .inl ⟨x, .inr (.inl rfl)⟩
  case waitForKey x => exact .inl ⟨x, .inr (.inr rfl)⟩
  all_goals exact .inr rfl

/-- Settles O23: only `LoadDelayIntoRegister`'s result mentions a timer, and only the two timer writes replace one. -/
theorem timersAreReadAndWrittenByTheirOwnOperations : Obligations.TimersAreReadAndWrittenByTheirOwnOperations := by
  intro i s t d v h
  obtain rfl := eq_execResult h
  rw [exec_eq]
  cases i <;> rfl

end Sys2Proof.Machine
end

section
/-! SUPPORT. Memory as the two storing instructions leave it (R60, R65, R74, R183 to R186): what each address reads, data and
fetch alike. -/

namespace Sys2Proof.Machine

open Safety

/-! ## Addresses -/

/-- Addresses that select one byte read the same (R60). -/
theorem State.readByte_congr (s : State) {a b : Nat} (h : physical a = physical b) : s.readByte a = s.readByte b := by
  rw [State.readByte, State.readByte, Memory.read, Memory.read, h]

theorem physical_succ {a b : Nat} (h : physical a = physical b) : physical (a + 1) = physical (b + 1) := by
  simp only [physical, Config.memSize] at h ⊢; omega

/-- Settles O43. -/
theorem addressesWrapAt4096 : Obligations.AddressesWrapAt4096 := by
  intro s a k
  refine ⟨s.readByte_congr (Nat.add_mul_mod_self_left a 4096 k), fun hpc => ?_⟩
  have hhi : physical s.pc.toNat = physical 0xFFF := hpc
  have hlo : physical (s.pc.toNat + 1) = physical 0x000 := physical_succ hhi
  rw [State.fetchWord, s.readByte_congr hhi, s.readByte_congr hlo]

/-! ## `StoreBCD` -/

/-- The algorithm of R186 gives the digits of R183, for each of the 256 bytes. -/
theorem doubleDabble_eq_bcdDigits : ∀ v : Byte, doubleDabble v = bcdDigits v := by
  decide +kernel

/-- Settles O37. -/
theorem storeBCDAgreesWithDoubleDabble : Obligations.StoreBCDAgreesWithDoubleDabble := by
  intro s x
  rw [doubleDabble_eq_bcdDigits]; rfl

theorem length_bcdDigits (v : Byte) : (bcdDigits v).length = 3 := rfl

/-- Settles O36: the store of three bytes. -/
theorem storeBCDWritesThreeDigits : Obligations.StoreBCDWritesThreeDigits := by
  intro s x
  have hread (k : Nat) (hk : k < 3) : (s.writeBytes (s.dataAddr 0) (bcdDigits (s.reg x))).readByte (s.dataAddr k) =
      (bcdDigits (s.reg x))[k]'hk :=
    s.readByte_writeBytes_of_lt (s.dataAddr 0) k (bcdDigits (s.reg x)) hk (by rw [length_bcdDigits]; decide)
  refine ⟨_, rfl, hread 0 (by decide), hread 1 (by decide), hread 2 (by decide), fun a h0 h1 h2 => ?_, writeBytes_eq s _ _⟩
  refine s.readByte_writeBytes_of_ne _ _ _ fun k hk => ?_
  match k, hk with
  | 0, _ => exact h0
  | 1, _ => exact h1
  | 2, _ => exact h2

/-! ## `SaveRegisters` -/

theorem exec_saveRegisters (x : Index) (s : State) :
    exec (.saveRegisters x) s = .next (s.writeBytes (s.dataAddr 0) (s.regsUpTo x)) := rfl

theorem State.readByte_saved (s : State) {x k : Index} (hk : k ≤ x) :
    (s.writeBytes (s.dataAddr 0) (s.regsUpTo x)).readByte (s.dataAddr k.val) = s.V[k] := by
  have hlen := s.length_regsUpTo x
  have hlt : k.val < (s.regsUpTo x).length := by rw [hlen]; exact Nat.lt_succ_of_le hk
  exact (s.readByte_writeBytes_of_lt (s.dataAddr 0) k.val _ hlt (by omega)).trans (s.getElem_regsUpTo x k.val hlt)

theorem State.readByte_not_saved (s : State) {x : Index} {a : Nat}
    (h : ∀ k : Fin 16, k ≤ x → physical a ≠ physical (s.dataAddr k.val)) :
    (s.writeBytes (s.dataAddr 0) (s.regsUpTo x)).readByte a = s.readByte a := by
  refine s.readByte_writeBytes_of_ne _ _ _ fun k hk => ?_
  rw [State.length_regsUpTo] at hk
  exact h ⟨k, by omega⟩ (Nat.le_of_lt_succ hk)

/-- Settles O38. -/
theorem saveRegistersStoresUpToX : Obligations.SaveRegistersStoresUpToX := fun s x =>
  ⟨_, exec_saveRegisters x s, fun _ => s.readByte_saved, fun _ => s.readByte_not_saved, writeBytes_eq s _ _⟩

/-- Settles O40: each register is loaded from the byte it was saved in. -/
theorem saveThenLoadGivesRegistersBack : Obligations.SaveThenLoadGivesRegistersBack := by
  intro s t u x W hsave hload
  cases hsave
  cases hload
  refine ⟨fun r hr => ?_, fun r hr => ?_⟩
  · rw [State.reg_setV_loadRegs, if_pos hr]
    exact s.readByte_saved hr
  · rw [State.reg_setV_loadRegs, if_neg (not_le.mpr hr)]; rfl

/-- Settles O41: the two bytes at pc are those of registers `k` and `k + 1`. -/
theorem savedRegistersAreFetchedNext : Obligations.SavedRegistersAreFetchedNext := by
  intro s t x k hk hkx hsave hpc
  cases hsave
  have hhi := State.readByte_congr (s.writeBytes (s.dataAddr 0) (s.regsUpTo x)) hpc
  have hlo := State.readByte_congr (s.writeBytes (s.dataAddr 0) (s.regsUpTo x)) (physical_succ hpc)
  rw [s.readByte_saved (x := x) (k := k) (Nat.le_of_succ_le hkx)] at hhi
  have hnext := s.readByte_saved (x := x) (k := ⟨k.val + 1, hk⟩) hkx
  rw [State.fetchWord, State.writeBytes_pc, hhi, hlo]
  exact congrArg _ hnext

/-! ## What the next fetch sees -/

/-- The fetch after a store, from any pc, reads each byte as the store left it (R74). -/
theorem fetchWord_after_store (s : State) {bytes : List Byte} (hl : bytes.length ≤ 16) (p : Word) :
    ({ s.writeBytes (s.dataAddr 0) bytes with pc := p } : State).fetchWord =
      wordOfBytes (byteAfterStore s bytes p.toNat) (byteAfterStore s bytes (p.toNat + 1)) := by
  rw [← readByte_store s bytes hl, ← readByte_store s bytes hl]; rfl

/-- A step of a storing instruction is the store of at most 16 bytes at the advanced pc. -/
theorem step_store {s : State} {i : Instr} {x : Index} {bytes : List Byte} (hdec : decodeWord s.fetchWord = .ok i)
    (hi : i = .storeBCD x ∧ bytes = bcdDigits (s.reg x) ∨ i = .saveRegisters x ∧ bytes = s.regsUpTo x) :
    bytes.length ≤ 16 ∧ step s = .next (s.advancePc.writeBytes (s.dataAddr 0) bytes) := by
  obtain ⟨rfl, rfl⟩ | ⟨rfl, rfl⟩ := hi
  · exact ⟨by simp [bcdDigits], step_of_ok hdec⟩
  · have := x.isLt
    exact ⟨by rw [State.length_regsUpTo]; omega, step_of_ok hdec⟩

/-- Settles O42. -/
theorem storedBytesAreSeenByTheNextFetch : Obligations.StoredBytesAreSeenByTheNextFetch := by
  intro s t i x bytes hdec hi hstep
  obtain ⟨hl, hstore⟩ := step_store hdec hi
  cases hstore.symm.trans hstep
  refine ⟨rfl, fun p => ?_⟩
  have hfetch := fetchWord_after_store s.advancePc hl p
  refine ⟨hfetch, fun j hj => ?_⟩
  exact step_of_ok ((congrArg decodeWord hfetch).trans hj)

end Sys2Proof.Machine
end

section
/-! SUPPORT. Start-up and ticks (R230, R260, R264): memory after `Initialize`, the first fetch after `LoadROM`, and runs of the
host's operations. -/

namespace Sys2Proof.Machine

/-! ## `Initialize` -/

theorem initializeCore_eq (font : Vector Byte 80) (s : State) :
    initializeCore font s = { State.reset with mem := (initializeCore font s).mem, draws := s.draws } := rfl

theorem readByte_font (font : Vector Byte 80) (s : State) {a : Nat} (h : a < 80) :
    (initializeCore font s).readByte a = font[a] := by
  have hread := Memory.read_writeBytes_of_lt font.toList [] 0 a (by simpa using h) (by simp)
  rw [Nat.zero_add, Vector.getElem_toList] at hread
  exact hread

theorem unlisted_of_ge {a : Nat} (h : 80 ≤ a) : unlisted a = 0 := by
  rw [unlisted, Vector.getElem?_eq_none h, Option.getD_none]

theorem unlisted_of_lt {a : Nat} (h : a < 80) : unlisted a = defaultFont[a] := by
  rw [unlisted, Vector.getElem?_eq_getElem h, Option.getD_some]

/-- A byte that is not listed. -/
theorem Memory.read_nil {a : Nat} (h : a < 4096) : Memory.read [] a = unlisted a := by
  have hphys : physical a = a := Nat.mod_eq_of_lt h
  rw [Memory.read, hphys]; rfl

theorem readByte_above_font (font : Vector Byte 80) (s : State) {a : Nat} (h : 80 ≤ a) (ha : a < 4096) :
    (initializeCore font s).readByte a = 0 := by
  have hread : (initializeCore font s).readByte a = Memory.read [] a := by
    refine Memory.read_writeBytes_of_ne font.toList [] 0 a fun k hk => ?_
    rw [Vector.length_toList] at hk
    simp only [physical, Config.memSize]; omega
  rw [hread, Memory.read_nil ha, unlisted_of_ge h]

/-- Settles O1. -/
theorem initializeSetsEveryItem : Obligations.InitializeSetsEveryItem := by
  intro font s
  refine ⟨fun a h => readByte_font font s h, fun a h ha => readByte_above_font font s h ha, fun x => ?_, rfl, rfl, rfl,
    fun j => ?_, fun p _ => BitVec.getLsbD_zero, rfl, rfl, rfl, fun k => ?_⟩
  · exact Vector.getElem_replicate x.isLt
  · exact Vector.getElem_replicate j.isLt
  · exact Vector.getElem_replicate k.isLt

/-- Settles O2: written over an empty memory, the default font reads as the empty memory does, and equal reads are equal data. -/
theorem resetIsInitializeWithDefaultFont : Obligations.ResetIsInitializeWithDefaultFont := by
  have hmem : (initializeCore defaultFont State.reset).mem = [] := by
    refine Memory.eq_of_read (initializeCore_invariant defaultFont State.reset) Memory.wf_nil fun a ha => ?_
    rw [Memory.read_nil ha]
    rcases Nat.lt_or_ge a 80 with h | h
    · exact (readByte_font defaultFont State.reset h).trans (unlisted_of_lt h).symm
    · exact (readByte_above_font defaultFont State.reset h ha).trans (unlisted_of_ge h).symm
  rw [Obligations.ResetIsInitializeWithDefaultFont, initializeCore_eq, hmem]; rfl

/-! ## `LoadROM` -/

theorem loadRom_ok {bytes : List Byte} {s t : State} (h : loadRom bytes s = (t, .ok)) :
    bytes.length ≤ 3584 ∧ t = s.writeBytes 0x200 bytes := by
  rcases Nat.lt_or_ge 3584 bytes.length with hgt | hle
  · rw [loadRom_of_gt hgt] at h
    simp at h
  · rw [loadRom_of_le hle] at h
    exact ⟨hle, (Prod.mk.inj h).1.symm⟩

/-- Settles O53: pc stands at the first byte of the ROM. -/
theorem bootFetchesTheFirstRomWord : Obligations.BootFetchesTheFirstRomWord := by
  rintro font rom s h ⟨s₀, hload⟩
  obtain ⟨hfits, rfl⟩ := loadRom_ok hload
  refine ⟨rfl, ?_, rfl, rfl, fun x => Vector.getElem_replicate x.isLt⟩
  have hhi := readByte_rom (initializeCore font s₀) hfits (k := 0) (by omega)
  have hlo := readByte_rom (initializeCore font s₀) hfits (k := 1) (by omega)
  rw [← hhi, ← hlo]; rfl

/-! ## Runs of the host's operations -/

/-- Settles O56. -/
theorem hostOperationsTouchOnlyTheirOwnState : Obligations.HostOperationsTouchOnlyTheirOwnState := fun _ s _ =>
  ⟨⟨_, _, congrArg Host.Outcome.next (tickTimers_eq s)⟩, rfl, rfl, fun _ ops _ h => hostRun_cons_of_next h ops⟩

/-- Settles O51, by induction on the number of ticks. -/
theorem timersAfterManyTicks : Obligations.TimersAfterManyTicks := by
  intro font n
  induction n with
  | zero => exact fun s => ⟨s, rfl, rfl, rfl, rfl⟩
  | succ n ih =>
    intro s
    obtain ⟨t, hrun, hDT, hST, ht⟩ := ih (tickTimers s)
    refine ⟨t, hrun, ?_, ?_, ht⟩
    · rw [hDT, tickTimers_DT, tickByte_toNat]; omega
    · rw [hST, tickTimers_ST, tickByte_toNat]; omega

end Sys2Proof.Machine
end

section
/-! SUPPORT. What `DrawSprite` does to the screen (R190 to R193), pixel by pixel: a sprite lights at most one bit on a pixel, the
lit pixels are flipped, and a lit pixel that was set is the collision. -/

namespace Sys2Proof.Machine

open Safety

/-! ## Lit pixels -/

/-- Some lit dot of the sprite falls on pixel `p`. -/
def State.lights (s : State) (x y n p : Nat) : Bool := (s.spriteDots x y n).any fun d => d.1 && decide (d.2 = p)

theorem State.lights_iff {s : State} {x y n p : Nat} :
    s.lights x y n p = true ↔
      ∃ r < n, ∃ col < 8, spriteBit (s.readByte (s.dataAddr r)) col = true ∧ pixelIndex (x + col) (y + r) = p := by
  simp only [State.lights, List.any_eq_true, Bool.and_eq_true, decide_eq_true_eq, State.mem_spriteDots]
  constructor
  · rintro ⟨_, ⟨r, hr, col, hcol, rfl⟩, hbit, hp⟩
    exact ⟨r, hr, col, hcol, hbit, hp⟩
  · rintro ⟨r, hr, col, hcol, hbit, hp⟩
    exact ⟨_, ⟨r, hr, col, hcol, rfl⟩, hbit, hp⟩

theorem State.pixel_drawRows (s : State) (x y : Nat) {n : Nat} (hn : n < 16) (p : Nat) :
    pixel (s.drawRows x y n).1 p = (pixel s.fb p ^^ s.lights x y n p) := by
  rw [State.drawRows_eq]
  exact (drawDots_spec _ _ State.spriteDots_lt (s.spriteDots_nodup x y n (by omega))).1 p

theorem State.collision_iff (s : State) (x y : Nat) {n : Nat} (hn : n < 16) :
    (s.drawRows x y n).2 = true ↔ ∃ p < 2048, s.lights x y n p = true ∧ pixel s.fb p = true := by
  rw [State.drawRows_eq, (drawDots_spec _ _ State.spriteDots_lt (s.spriteDots_nodup x y n (by omega))).2]
  simp only [State.lights, Bool.false_or, List.any_eq_true, Bool.and_eq_true, decide_eq_true_eq]
  constructor
  · rintro ⟨d, hd, hbit, hpix⟩
    exact ⟨d.2, State.spriteDots_lt d hd, ⟨d, hd, hbit, rfl⟩, hpix⟩
  · rintro ⟨_, -, ⟨d, hd, hbit, rfl⟩, hpix⟩
    exact ⟨d, hd, hbit, hpix⟩

/-! ## The instruction -/

theorem exec_drawSprite (x y : Index) (n : Nat) (s : State) :
    exec (.drawSprite x y n) s =
      .next ((s.paint (s.drawRows (s.reg x).toNat (s.reg y).toNat n).1).setFlag
        (s.drawRows (s.reg x).toNat (s.reg y).toNat n).2) := rfl

/-- The pixels that `DrawSprite` flips: its coordinates are the registers' (R190). -/
def State.spriteAt (s : State) (x y : Index) (n p : Nat) : Bool := s.lights (s.reg x).toNat (s.reg y).toNat n p

@[simp] theorem State.reg_VF_setFlag (s : State) (f : Bool) : (s.setFlag f).reg VF = flagByte f :=
  (s.reg_setReg VF VF _).trans (if_pos rfl)

theorem flagByte_eq_one_iff (f : Bool) : flagByte f = 1 ↔ f = true := by
  cases f <;> decide

theorem flagByte_zero_or_one (f : Bool) : flagByte f = 0 ∨ flagByte f = 1 := by
  cases f
  · exact .inl rfl
  · exact .inr rfl

@[simp] theorem State.reg_VF_setRegFlag (s : State) (x : Index) (r : Byte) (f : Bool) :
    (s.setRegFlag x r f).reg VF = flagByte f := State.reg_VF_setFlag _ f

section DrawSprite

variable {x y : Index} {n : Nat} {s t : State} (h : exec (.drawSprite x y n) s = .next t)
include h

theorem pixel_drawSprite (hn : n < 16) (p : Nat) : pixel t.fb p = (pixel s.fb p ^^ s.spriteAt x y n p) := by
  cases h; exact s.pixel_drawRows _ _ hn p

theorem collision_drawSprite (hn : n < 16) :
    t.reg VF = 1 ↔ ∃ p < 2048, s.spriteAt x y n p = true ∧ pixel s.fb p = true := by
  cases h
  rw [State.reg_VF_setFlag, flagByte_eq_one_iff]
  exact s.collision_iff _ _ hn

theorem flag_drawSprite : t.reg VF = 0 ∨ t.reg VF = 1 := by
  cases h
  rw [State.reg_VF_setFlag]; exact flagByte_zero_or_one _

/-- The same instruction again falls on the same pixels, if no coordinate stands in VF. -/
theorem spriteAt_drawSprite (hx : x ≠ VF) (hy : y ≠ VF) (p : Nat) : t.advancePc.spriteAt x y n p = s.spriteAt x y n p := by
  cases h
  have hreg (r : Index) (hr : r ≠ VF) (f : Bool) (fb : Frame) : (((s.paint fb).setFlag f).advancePc).reg r = s.reg r :=
    (State.reg_setReg _ VF r _).trans (if_neg hr.symm)
  rw [State.spriteAt, hreg x hx, hreg y hy]; rfl

end DrawSprite

/-- Settles O21: VF is written last, and a collision is a pixel that the drawing turned off. -/
theorem flagAfterEachDefiningOperation : Obligations.FlagAfterEachDefiningOperation := by
  intro s x y n hn
  have hdraw := exec_drawSprite x y n s
  have hflag (r : Byte) (f : Bool) := s.reg_VF_setRegFlag x r f
  refine ⟨⟨_, rfl, (hflag _ _).trans (flagByte_decide _)⟩, ⟨_, rfl, (hflag _ _).trans (flagByte_decide _)⟩,
    ⟨_, rfl, (hflag _ _).trans (flagByte_decide _)⟩, ⟨_, rfl, hflag _ _⟩, ⟨_, rfl, hflag _ _⟩,
    _, hdraw, flag_drawSprite hdraw, ?_⟩
  rw [collision_drawSprite hdraw hn]
  refine exists_congr fun p => and_congr_right fun _ => ?_
  rw [pixel_drawSprite hdraw hn]
  cases pixel s.fb p <;> simp

/-! ## Where a sprite bit falls -/

/-- The dot of column `col` and row `r` falls on `(X, Y)` exactly if `col` and `r` are the distances around the screen. -/
theorem pixelIndex_eq_iff {x y col r X Y : Nat} (hcol : col < 8) (hr : r < 16) (hX : X < 64) (hY : Y < 32) :
    pixelIndex (x + col) (y + r) = X + 64 * Y ↔ col = (X + 64 - x % 64) % 64 ∧ r = (Y + 32 - y % 32) % 32 := by
  simp only [pixelIndex, Config.fbWidth, Config.fbHeight]
  omega

theorem State.spriteAt_eq_spriteLights (s : State) (x y : Index) {n X Y : Nat} (hn : n < 16) (hX : X < 64) (hY : Y < 32) :
    s.spriteAt x y n (X + 64 * Y) = spriteLights s x y n X Y := by
  rw [Bool.eq_iff_iff, State.spriteAt, State.lights_iff]
  simp only [spriteLights, Bool.and_eq_true, decide_eq_true_eq, and_assoc]
  constructor
  · rintro ⟨r, hr, col, hcol, hbit, hp⟩
    obtain ⟨rfl, rfl⟩ := (pixelIndex_eq_iff hcol (by omega) hX hY).mp hp
    exact ⟨hr, hcol, hbit⟩
  · rintro ⟨hr, hcol, hbit⟩
    exact ⟨_, hr, _, hcol, hbit, (pixelIndex_eq_iff hcol (by omega) hX hY).mpr ⟨rfl, rfl⟩⟩

/-- Every pixel has one pair of coordinates. -/
theorem exists_pixel_iff (P : Nat → Prop) : (∃ p < 2048, P p) ↔ ∃ X < 64, ∃ Y < 32, P (X + 64 * Y) := by
  constructor
  · rintro ⟨p, hp, h⟩
    exact ⟨p % 64, by omega, p / 64, by omega, by rwa [Nat.mod_add_div]⟩
  · rintro ⟨X, hX, Y, hY, h⟩
    exact ⟨X + 64 * Y, by omega, h⟩

/-- Settles O44: the pixels the sprite falls on are the ones `spriteLights` names. -/
theorem drawSpriteXorsTheSpriteIn : Obligations.DrawSpriteXorsTheSpriteIn := by
  intro s x y n hn
  have hdraw := exec_drawSprite x y n s
  refine ⟨_, hdraw, fun X hX Y hY => ?_, flag_drawSprite hdraw, ?_, ?_⟩
  · rw [pixel_drawSprite hdraw hn, s.spriteAt_eq_spriteLights x y hn hX hY]
  · rw [collision_drawSprite hdraw hn, exists_pixel_iff]
    refine exists_congr fun X => and_congr_right fun hX => exists_congr fun Y => and_congr_right fun hY => ?_
    rw [s.spriteAt_eq_spriteLights x y hn hX hY]
  · rw [State.reg_VF_setFlag]; rfl

/-! ## Drawing twice -/

theorem Frame.eq_of_pixel {f g : Frame} (h : ∀ p, pixel f p = pixel g p) : f = g :=
  BitVec.eq_of_getLsbD_eq fun p _ => h p

/-- A byte with no 1 bit is zero. -/
theorem byte_ne_zero_iff (b : Byte) : b ≠ 0 ↔ ∃ col < 8, spriteBit b col = true := by
  constructor
  · intro hb
    by_contra hnone
    refine hb (BitVec.eq_of_getLsbD_eq fun k hk => ?_)
    have hcol := not_exists.mp hnone (7 - k)
    rw [spriteBit, show 7 - (7 - k) = k by omega] at hcol
    simpa using fun hbit => hcol ⟨by omega, hbit⟩
  · rintro ⟨col, -, hbit⟩ rfl
    simp [spriteBit] at hbit

/-- A sprite lights some pixel exactly if some byte of it is not zero. -/
theorem State.exists_lights_iff (s : State) (x y n : Nat) :
    (∃ p < 2048, s.lights x y n p = true) ↔ ∃ r < n, s.readByte (s.dataAddr r) ≠ 0 := by
  simp only [byte_ne_zero_iff, State.lights_iff]
  constructor
  · rintro ⟨p, -, r, hr, col, hcol, hbit, -⟩
    exact ⟨r, hr, col, hcol, hbit⟩
  · rintro ⟨r, hr, col, hcol, hbit⟩
    exact ⟨_, pixelIndex_lt _ _, r, hr, col, hcol, hbit, rfl⟩

/-- Settles O45: the second drawing falls on the same pixels, so each is flipped twice, and with no collision before, every pixel
of the sprite is set when it is drawn again. -/
theorem drawingTwiceRestoresTheScreen : Obligations.DrawingTwiceRestoresTheScreen := by
  intro s t u x y n hn hx hy ht hu
  have hfirst := pixel_drawSprite ht hn
  have hsecond := pixel_drawSprite hu hn
  have hsame := spriteAt_drawSprite ht hx hy
  refine ⟨Frame.eq_of_pixel fun p => ?_, fun hVF => ?_⟩
  · rw [hsecond, hsame, State.advancePc_fb, hfirst, Bool.xor_assoc, Bool.xor_self, Bool.xor_false]
  · have hclear (p : Nat) (hp : p < 2048) (hlit : s.spriteAt x y n p = true) : pixel s.fb p = false := by
      by_contra hset
      have hone := (collision_drawSprite ht hn).mpr ⟨p, hp, hlit, Bool.eq_true_of_not_eq_false hset⟩
      exact absurd (hVF.symm.trans hone) (by decide)
    rw [collision_drawSprite hu hn, ← s.exists_lights_iff (s.reg x).toNat (s.reg y).toNat]
    refine exists_congr fun p => and_congr_right fun hp => ?_
    rw [hsame, State.advancePc_fb, hfirst]
    refine and_iff_left_of_imp fun hlit => ?_
    rw [hclear p hp hlit, hlit]; rfl

end Sys2Proof.Machine
end
